-- ==== Sys2Proof/Word.lean ====
section
/-! DEFINITION. Bytes, septets, the byte constants of R13, and triples of channels. -/
namespace Sys2Proof

/-- A byte, bit 0 least significant (R11). -/
abbrev Byte := BitVec 8

/-- A decoded 7-bit character (R68, R101). -/
abbrev Septet := BitVec 7

/-- Three independent values, one for each channel A, B, C of a colour (R14, R236). -/
structure Chan (α : Type) where
  a : α
  b : α
  c : α
deriving DecidableEq, Repr, Inhabited

/-- The value of channel `0` (A), `1` (B) or `2` (C). -/
def Chan.get {α : Type} (t : Chan α) (i : Fin 3) : α :=
  match i with
  | 0 => t.a
  | 1 => t.b
  | 2 => t.c

/-- The same value on all three channels. -/
def Chan.fill {α : Type} (x : α) : Chan α := ⟨x, x, x⟩

/-- One operation on each lane: no lane reads another (R236). -/
def Chan.map2 {α β γ : Type} (f : α → β → γ) (s : Chan α) (t : Chan β) : Chan γ :=
  ⟨f s.a t.a, f s.b t.b, f s.c t.c⟩

/-- One operation of three arguments on each lane (R236). -/
def Chan.map3 {α β γ δ : Type} (f : α → β → γ → δ) (s : Chan α) (t : Chan β) (u : Chan γ) : Chan δ :=
  ⟨f s.a t.a u.a, f s.b t.b u.b, f s.c t.c u.c⟩

/-- A colour: three 8-bit channels (R14). -/
abbrev Colour := Chan Byte

/-- All channels 0: the colour of `GRAY[0]` and of every LED after reset (R36, R42). -/
def Colour.off : Colour := Chan.fill 0

/-- `ceil2(x) = (x + 1) div 2` (R11). -/
def ceil2 (x : Nat) : Nat := (x + 1) / 2

/-! Byte constants by name (R13). -/

def byteCR : Byte := 0x0D
def byteLF : Byte := 0x0A
def byteESC : Byte := 0x1B
def byteSUB : Byte := 0x1A
def byteA : Byte := 0x41
def byteT : Byte := 0x54

/-- `ECHO`, `0D 0A` (R104). -/
def replyEcho : List Byte := [0x0D, 0x0A]
/-- `PROMPT`, `3E 20`, that is `"> "` (R104). -/
def replyPrompt : List Byte := [0x3E, 0x20]
/-- `STATUS`, `"+CPIN: READY"` then CR LF (R104). -/
def replyStatus : List Byte :=
  [0x2B, 0x43, 0x50, 0x49, 0x4E, 0x3A, 0x20, 0x52, 0x45, 0x41, 0x44, 0x59, 0x0D, 0x0A]
/-- `OK`, `4F 4B 0D 0A` (R104). -/
def replyOk : List Byte := [0x4F, 0x4B, 0x0D, 0x0A]

end Sys2Proof
end

