-- ==== Sys2Proof/Config.lean ====
section
/-! DEFINITION. The implementation parameters of R7, and the values the spec leaves open. -/
namespace Sys2Proof

/-- `Z9_MATCH` (R7, R144): whether `Z9` must be the whole text or only its start. -/
inductive Z9Match
  | exactText
  | startOfText
deriving DecidableEq, Repr

/-- The times of the pulse encoding (R7, R258), in a unit the spec does not name. The longer ones are held
as what they add, so that `T_SHORT < T_LONG < T_BIT` cannot fail. -/
structure PulseTimes where
  /-- `T_SHORT`. -/
  short : Nat
  /-- `T_LONG - T_SHORT - 1`. -/
  longExtra : Nat
  /-- `T_BIT - T_LONG - 1`. -/
  bitExtra : Nat
  /-- `T_LATCH`. -/
  latch : Nat
deriving DecidableEq, Repr, Inhabited

/-- `T_LONG` (R7). -/
def PulseTimes.long (t : PulseTimes) : Nat := t.short + t.longExtra + 1

/-- `T_BIT` (R7). -/
def PulseTimes.bit (t : PulseTimes) : Nat := t.long + t.bitExtra + 1

/-- The parameters a build fixes (R7, R316). The types of `CAP`, `N`, `FADE_SHIFT`, the colour tables and the
pulse times hold the admitted values and no others, so a configuration that R8 or R36 refuses cannot be
written down. A parameter whose default is OPEN and on which no length depends may be left out: its value
is then free. -/
structure Config where
  /-- `CAP - 16`; `CAP` is 16 to 256. -/
  capExtra : Fin 241
  /-- `N - 1`; `N` is 1 to 254. -/
  nPred : Fin 254
  /-- `FADE_SHIFT`, 0 to 4. -/
  fadeShift : Fin 5
  /-- `RAINBOW`, any 26 colours; no default (R7, R36). -/
  rainbow : Option (Vector Colour 26)
  /-- `GRAY[1]` to `GRAY[9]`, any colours; no default (R7, R36). `GRAY[0]` is off and is no parameter. -/
  grayTail : Option (Vector Colour 9)
  /-- `ENV_SKIP`, 7 unless a model varies it (R7, N15). -/
  envSkip : Nat
  /-- `Z9_MATCH`. -/
  z9Match : Z9Match
  /-- `TICK_HZ`, any nominal rate; no rule depends on it (R7, R293). -/
  tickHz : Nat
  /-- `T_SHORT`, `T_LONG`, `T_BIT` and `T_LATCH`; no default, and no rule depends on them (R7, R258). -/
  pulseTimes : Option PulseTimes
  /-- `WDT_TIMEOUT`; no default, and no rule depends on it (R7, R288). -/
  wdtTimeout : Option Nat
deriving DecidableEq, Repr

/-- `CAP`, the capacity of the Command Line Buffer (R7). -/
def Config.cap (c : Config) : Nat := 16 + c.capExtra.val

/-- `N`, the number of live LEDs (R7). -/
def Config.n (c : Config) : Nat := c.nPred.val + 1

/-- `FADE_TICKS = 1 << FADE_SHIFT` (R7). -/
def Config.fadeTicks (c : Config) : Nat := 2 ^ c.fadeShift.val

/-- `REPLY_MAX` (R7, R150). -/
def Config.replyMax : Nat := 20

/-- FREE VALUE. The rainbow table of a build that does not give one (R36). -/
opaque Config.openRainbow : Fin 26 → Colour

/-- FREE VALUE. Entries 1 to 9 of the grayscale table of a build that does not give them (R36). -/
opaque Config.openGray : Fin 9 → Colour

/-- FREE VALUE. Whether, the `k`-th time a tick and a byte are presented at one instant, the tick is
taken first (R283: the order is not fixed and a model must not fix it). -/
opaque Config.tickFirst : Nat → Bool

/-- FREE VALUE. The pulse times of a build that does not give them (R258). -/
opaque Config.openPulseTimes : PulseTimes

/-- FREE VALUE. The watchdog's time in a build that does not give it (R288). -/
opaque Config.openTimeout : Nat

/-- The pulse times (R7); no meaning reads them (R258). -/
def Config.pulse (c : Config) : PulseTimes := c.pulseTimes.getD Config.openPulseTimes

/-- `WDT_TIMEOUT` (R7); no meaning reads it (R288). -/
def Config.timeout (c : Config) : Nat := c.wdtTimeout.getD Config.openTimeout

end Sys2Proof
end

