-- ==== Sys2Proof/Syntax.lean ====
section
/-! DEFINITION. Parser states, input events, and `Instr`: one constructor per row of the opcode table. -/
namespace Sys2Proof

/-- The Parser State, seven values (R24); the eighth 3-bit code is no state (R117). -/
inductive ParserState
  | idle
  | awaitingCRAfterPrompt
  | waitingForLineFeed
  | expectingA
  | expectingT
  | collectingCommand
  | collectingMessage
deriving DecidableEq, Repr

/-- The codes of R24. -/
def ParserState.code : ParserState → BitVec 3
  | .idle => 0
  | .awaitingCRAfterPrompt => 1
  | .waitingForLineFeed => 2
  | .expectingA => 3
  | .expectingT => 4
  | .collectingCommand => 5
  | .collectingMessage => 6

/-- The four input events (R9). -/
inductive Event
  | reset
  | byteIn (b : Byte)
  | timerTick
  | sclk
deriving DecidableEq, Repr

/-- The instructions: one constructor for each row of `opcode_table.json` (R107), in its order.
An operand stands only where a row covers several codes, or where the row has operands and no code. -/
inductive Instr
  -- BYTE: a byte taken in a parser state (R91, R140)
  | idleEsc
  | idleCr
  | idleOther (b : Byte)
  | acrEsc
  | acrCr
  | acrOther (b : Byte)
  | wlfEsc
  | wlfCr
  | wlfLf
  | wlfOther (b : Byte)
  | expaEsc
  | expaCr
  | expaA
  | expaOther (b : Byte)
  | exptEsc
  | exptCr
  | exptT
  | exptOther (b : Byte)
  | ccEsc
  | ccCr
  | ccOther (b : Byte)
  | cmEsc
  | cmCr
  | cmSub
  | cmOther (b : Byte)
  -- CMD: a command text, matched at dispatch (R94)
  | cmgs
  | cpin
  | z9
  | otherCmd
  -- HEX: a message character (R96)
  | hexDigit0
  | hexDigit1
  | hexDigit2
  | hexDigit3
  | hexDigit4
  | hexDigit5
  | hexDigit6
  | hexDigit7
  | hexDigit8
  | hexDigit9
  | hexLetterA
  | hexLetterB
  | hexLetterC
  | hexLetterD
  | hexLetterE
  | hexLetterF
  | hexOther (b : Byte)
  -- STRIP: a decoded 7-bit character (R101)
  | shift
  | rainbow0
  | rainbow1
  | rainbow2
  | rainbow3
  | rainbow4
  | rainbow5
  | rainbow6
  | rainbow7
  | rainbow8
  | rainbow9
  | rainbow10
  | rainbow11
  | rainbow12
  | rainbow13
  | rainbow14
  | rainbow15
  | rainbow16
  | rainbow17
  | rainbow18
  | rainbow19
  | rainbow20
  | rainbow21
  | rainbow22
  | rainbow23
  | rainbow24
  | rainbow25
  | gray0
  | gray1
  | gray2
  | gray3
  | gray4
  | gray5
  | gray6
  | gray7
  | gray8
  | gray9
  | allOff
  | skipSpace
  | skipOther (ch : Septet)
  -- FADE: the Fade Engine operations, invoked by other rules (R220, R226, R228)
  | setTarget (index : Byte) (colour : Colour)
  | shiftOp
  | tick
  -- EVENT: the input events (R9)
  | reset
  | byteIn (b : Byte)
  | timerTick
  | sclk
deriving DecidableEq, Repr

/-- The six formats of the opcode table (R107). -/
inductive Format
  | byte
  | cmd
  | hex
  | strip
  | fade
  | event
deriving DecidableEq, Repr

/-- The format of an instruction's row (R107). -/
def Instr.format : Instr → Format
  | .idleEsc | .idleCr | .idleOther _ | .acrEsc | .acrCr | .acrOther _ | .wlfEsc | .wlfCr
  | .wlfLf | .wlfOther _ | .expaEsc | .expaCr | .expaA | .expaOther _ | .exptEsc | .exptCr
  | .exptT | .exptOther _ | .ccEsc | .ccCr | .ccOther _ | .cmEsc | .cmCr | .cmSub | .cmOther _ => .byte
  | .cmgs | .cpin | .z9 | .otherCmd => .cmd
  | .hexDigit0 | .hexDigit1 | .hexDigit2 | .hexDigit3 | .hexDigit4 | .hexDigit5 | .hexDigit6
  | .hexDigit7 | .hexDigit8 | .hexDigit9 | .hexLetterA | .hexLetterB | .hexLetterC | .hexLetterD
  | .hexLetterE | .hexLetterF | .hexOther _ => .hex
  | .shift | .rainbow0 | .rainbow1 | .rainbow2 | .rainbow3 | .rainbow4 | .rainbow5 | .rainbow6
  | .rainbow7 | .rainbow8 | .rainbow9 | .rainbow10 | .rainbow11 | .rainbow12 | .rainbow13
  | .rainbow14 | .rainbow15 | .rainbow16 | .rainbow17 | .rainbow18 | .rainbow19 | .rainbow20
  | .rainbow21 | .rainbow22 | .rainbow23 | .rainbow24 | .rainbow25 | .gray0 | .gray1 | .gray2
  | .gray3 | .gray4 | .gray5 | .gray6 | .gray7 | .gray8 | .gray9 | .allOff | .skipSpace
  | .skipOther _ => .strip
  | .setTarget _ _ | .shiftOp | .tick => .fade
  | .reset | .byteIn _ | .timerTick | .sclk => .event

/-- The instruction an input event is (R9). -/
def Event.instr : Event → Instr
  | .reset => .reset
  | .byteIn b => .byteIn b
  | .timerTick => .timerTick
  | .sclk => .sclk

end Sys2Proof
end

