-- ==== Sys2Proof/WellFormed.lean ====
section
/-! DEFINITION. When an instruction's operands are ones its row of the opcode table admits: a default
row takes exactly the codes that no other row of its format (and state) takes (R107). -/
namespace Sys2Proof

/-- `lo ≤ v ≤ hi`, all unsigned (R11). -/
def inRange {w : Nat} (v lo hi : BitVec w) : Bool := lo ≤ v && v ≤ hi

/-- Neither of the two bytes that every state singles out (R91). -/
def plainByte (b : Byte) : Bool := b ≠ byteESC && b ≠ byteCR

/-- A hex digit or an upper-case hex letter (R96). -/
def isHexChar (b : Byte) : Bool := inRange b 0x30 0x39 || inRange b 0x41 0x46

/-- A character with a row of its own among the strip commands (R101). -/
def isNamedStrip (ch : Septet) : Bool :=
  ch = 0x3E || inRange ch 0x61 0x7A || inRange ch 0x30 0x39 || ch = 0x58 || ch = 0x20

/-- The operand is one the instruction's row admits. -/
def Instr.wf : Instr → Bool
  | .idleOther b => plainByte b
  | .acrOther b => plainByte b
  | .wlfOther b => plainByte b && b ≠ byteLF
  | .expaOther b => plainByte b && b ≠ byteA
  | .exptOther b => plainByte b && b ≠ byteT
  | .ccOther b => plainByte b
  | .cmOther b => plainByte b && b ≠ byteSUB
  | .hexOther b => !isHexChar b && b ≠ byteSUB && b ≠ byteESC
  | .skipOther ch => !isNamedStrip ch
  | _ => true

end Sys2Proof
end

