-- ==== Sys2Proof/Decode.lean ====
section
/-! DEFINITION. The decoder of every level of the command dialect, the encoder, and the words of the
opcode table. A code is the bits of an instruction together with where they arrive, because the same
byte selects different rows by level and by parser state (R91, R119). -/
namespace Sys2Proof

/-- A list of rows, each a code and the instruction it selects (R107). -/
abbrev Rows (w : Nat) := List (BitVec w × Instr)

/-- The instruction of the row whose code is `v`. -/
def lookupRow {w : Nat} : Rows w → BitVec w → Option Instr
  | [], _ => none
  | (c, i) :: rows, v => if v = c then some i else lookupRow rows v

/-! ### Level 1: a byte in a parser state (R91, R92, R140) -/

/-- The rows of a state that name one byte. -/
def stateRows : ParserState → Rows 8
  | .idle => [(byteESC, .idleEsc), (byteCR, .idleCr)]
  | .awaitingCRAfterPrompt => [(byteESC, .acrEsc), (byteCR, .acrCr)]
  | .waitingForLineFeed => [(byteESC, .wlfEsc), (byteCR, .wlfCr), (byteLF, .wlfLf)]
  | .expectingA => [(byteESC, .expaEsc), (byteCR, .expaCr), (byteA, .expaA)]
  | .expectingT => [(byteESC, .exptEsc), (byteCR, .exptCr), (byteT, .exptT)]
  | .collectingCommand => [(byteESC, .ccEsc), (byteCR, .ccCr)]
  | .collectingMessage => [(byteESC, .cmEsc), (byteCR, .cmCr), (byteSUB, .cmSub)]

/-- The default row of a state, which takes every other byte (R107). -/
def stateOther : ParserState → Byte → Instr
  | .idle => .idleOther
  | .awaitingCRAfterPrompt => .acrOther
  | .waitingForLineFeed => .wlfOther
  | .expectingA => .expaOther
  | .expectingT => .exptOther
  | .collectingCommand => .ccOther
  | .collectingMessage => .cmOther

/-- The row that byte `b` selects in state `ps` (R140). No byte is illegal in any state (R108). -/
def byteRow (ps : ParserState) (b : Byte) : Instr :=
  (lookupRow (stateRows ps) b).getD (stateOther ps b)

/-- The parser state with a given code; code 7 is no state (R117). -/
def stateOfCode (c : BitVec 3) : Option ParserState :=
  match c.toNat with
  | 0 => some .idle
  | 1 => some .awaitingCRAfterPrompt
  | 2 => some .waitingForLineFeed
  | 3 => some .expectingA
  | 4 => some .expectingT
  | 5 => some .collectingCommand
  | 6 => some .collectingMessage
  | _ => none

/-! ### Level 3: the command text (R94, R141, R144) -/

/-- `+CMGS=` (R94). -/
def textCmgs : List Byte := [0x2B, 0x43, 0x4D, 0x47, 0x53, 0x3D]
/-- `+CPIN?` (R94). -/
def textCpin : List Byte := [0x2B, 0x43, 0x50, 0x49, 0x4E, 0x3F]
/-- What `Z9` is compared with: the zero-terminated text, or its first two bytes (R94, R144). -/
def textZ9 : Z9Match → List Byte
  | .exactText => [0x5A, 0x39, 0x00]
  | .startOfText => [0x5A, 0x39]

/-- Byte-wise comparison of a pattern with the first bytes of the text, in order (R141).
`none`: the bytes given end before the comparison is decided. -/
def compareText : List Byte → List Byte → Option Bool
  | [], _ => some true
  | _ :: _, [] => none
  | p :: ps, b :: bs => if b = p then compareText ps bs else some false

/-- The dispatch list, ordered, first match wins (R94, R137). -/
def cmdRow (z : Z9Match) (text : List Byte) : Option Instr :=
  match compareText textCmgs text with
  | none => none
  | some true => some .cmgs
  | some false =>
    match compareText textCpin text with
    | none => none
    | some true => some .cpin
    | some false =>
      match compareText (textZ9 z) text with
      | none => none
      | some true => some .z9
      | some false => some .otherCmd

/-! ### Level 4: a message character (R96) -/

/-- The rows of the sixteen hex characters. -/
def hexRows : Rows 8 :=
  [(0x30, .hexDigit0), (0x31, .hexDigit1), (0x32, .hexDigit2), (0x33, .hexDigit3),
   (0x34, .hexDigit4), (0x35, .hexDigit5), (0x36, .hexDigit6), (0x37, .hexDigit7),
   (0x38, .hexDigit8), (0x39, .hexDigit9), (0x41, .hexLetterA), (0x42, .hexLetterB),
   (0x43, .hexLetterC), (0x44, .hexLetterD), (0x45, .hexLetterE), (0x46, .hexLetterF)]

/-- The row a message character selects; every character but the sixteen is `HEXOTHER` (R110). -/
def hexRow (b : Byte) : Instr := (lookupRow hexRows b).getD (.hexOther b)

/-! ### Level 5: a strip command (R101) -/

/-- The rows of `'a'..'z'`. -/
def rainbowRows : Rows 7 :=
  [(0x61, .rainbow0), (0x62, .rainbow1), (0x63, .rainbow2), (0x64, .rainbow3),
   (0x65, .rainbow4), (0x66, .rainbow5), (0x67, .rainbow6), (0x68, .rainbow7),
   (0x69, .rainbow8), (0x6A, .rainbow9), (0x6B, .rainbow10), (0x6C, .rainbow11),
   (0x6D, .rainbow12), (0x6E, .rainbow13), (0x6F, .rainbow14), (0x70, .rainbow15),
   (0x71, .rainbow16), (0x72, .rainbow17), (0x73, .rainbow18), (0x74, .rainbow19),
   (0x75, .rainbow20), (0x76, .rainbow21), (0x77, .rainbow22), (0x78, .rainbow23),
   (0x79, .rainbow24), (0x7A, .rainbow25)]

/-- The rows of `'0'..'9'`. -/
def grayRows : Rows 7 :=
  [(0x30, .gray0), (0x31, .gray1), (0x32, .gray2), (0x33, .gray3),
   (0x34, .gray4), (0x35, .gray5), (0x36, .gray6), (0x37, .gray7),
   (0x38, .gray8), (0x39, .gray9)]

/-- The rows of the strip commands, in the order of the table. -/
def stripRows : Rows 7 :=
  (0x3E, .shift) :: (rainbowRows ++ grayRows ++ [(0x58, .allOff), (0x20, .skipSpace)])

/-- The row a decoded character selects; the other 89 values are `SKIP_OTHER` (R111). -/
def stripRow (ch : Septet) : Instr := (lookupRow stripRows ch).getD (.skipOther ch)

/-! ### Codes -/

/-- A call of a Fade Engine operation by another rule; it has no bits (R107). -/
inductive FadeCall
  | setTarget (index : Byte) (colour : Colour)
  | shiftOp
  | tick
deriving DecidableEq, Repr

/-- The bits of an instruction and where they arrive. -/
inductive Code
  /-- At an event port: no bits (R107). -/
  | event (e : Event)
  /-- A byte taken in the state with this code (R24, R91). -/
  | byte (state : BitVec 3) (b : Byte)
  /-- The first bytes of the Command Line Buffer at the closing CR (R94). -/
  | cmd (text : List Byte)
  /-- A character of a message (R96). -/
  | hex (c : Byte)
  /-- A decoded 7-bit character (R101). -/
  | strip (ch : Septet)
  /-- An internal call: no bits (R107). -/
  | fade (f : FadeCall)
deriving DecidableEq, Repr

/-- Why a code is no instruction. -/
inductive DecodeError
  /-- State code 7 (R117). -/
  | noSuchState
  /-- The bytes of the text end before the dispatch comparison is decided. -/
  | textCutShort
  /-- Ctrl-Z ends a message and never reaches the unpacker (R179). -/
  | subIsNoMessageCharacter
  /-- Escape leaves the message and never reaches the unpacker (R179). -/
  | escIsNoMessageCharacter
deriving DecidableEq, Repr

/-- The decoder, total: every code is an instruction or is rejected by name. -/
def decode (z : Z9Match) : Code → Except DecodeError Instr
  | .event e => .ok e.instr
  | .byte c b =>
    match stateOfCode c with
    | some ps => .ok (byteRow ps b)
    | none => .error .noSuchState
  | .cmd text =>
    match cmdRow z text with
    | some i => .ok i
    | none => .error .textCutShort
  | .hex c =>
    if c = byteSUB then .error .subIsNoMessageCharacter
    else if c = byteESC then .error .escIsNoMessageCharacter
    else .ok (hexRow c)
  | .strip ch => .ok (stripRow ch)
  | .fade (.setTarget index colour) => .ok (.setTarget index colour)
  | .fade .shiftOp => .ok .shiftOp
  | .fade .tick => .ok .tick

/-- The code of an instruction, written from the tables of R91, R94, R96 and R101.
A command text is given with the terminator that ends it in the buffer, where its row reads that far. -/
def encode : Instr → Code
  | .idleEsc => .byte 0 0x1B
  | .idleCr => .byte 0 0x0D
  | .idleOther b => .byte 0 b
  | .acrEsc => .byte 1 0x1B
  | .acrCr => .byte 1 0x0D
  | .acrOther b => .byte 1 b
  | .wlfEsc => .byte 2 0x1B
  | .wlfCr => .byte 2 0x0D
  | .wlfLf => .byte 2 0x0A
  | .wlfOther b => .byte 2 b
  | .expaEsc => .byte 3 0x1B
  | .expaCr => .byte 3 0x0D
  | .expaA => .byte 3 0x41
  | .expaOther b => .byte 3 b
  | .exptEsc => .byte 4 0x1B
  | .exptCr => .byte 4 0x0D
  | .exptT => .byte 4 0x54
  | .exptOther b => .byte 4 b
  | .ccEsc => .byte 5 0x1B
  | .ccCr => .byte 5 0x0D
  | .ccOther b => .byte 5 b
  | .cmEsc => .byte 6 0x1B
  | .cmCr => .byte 6 0x0D
  | .cmSub => .byte 6 0x1A
  | .cmOther b => .byte 6 b
  | .cmgs => .cmd [0x2B, 0x43, 0x4D, 0x47, 0x53, 0x3D]
  | .cpin => .cmd [0x2B, 0x43, 0x50, 0x49, 0x4E, 0x3F]
  | .z9 => .cmd [0x5A, 0x39, 0x00]
  | .otherCmd => .cmd [0x00]
  | .hexDigit0 => .hex 0x30
  | .hexDigit1 => .hex 0x31
  | .hexDigit2 => .hex 0x32
  | .hexDigit3 => .hex 0x33
  | .hexDigit4 => .hex 0x34
  | .hexDigit5 => .hex 0x35
  | .hexDigit6 => .hex 0x36
  | .hexDigit7 => .hex 0x37
  | .hexDigit8 => .hex 0x38
  | .hexDigit9 => .hex 0x39
  | .hexLetterA => .hex 0x41
  | .hexLetterB => .hex 0x42
  | .hexLetterC => .hex 0x43
  | .hexLetterD => .hex 0x44
  | .hexLetterE => .hex 0x45
  | .hexLetterF => .hex 0x46
  | .hexOther b => .hex b
  | .shift => .strip 0x3E
  | .rainbow0 => .strip 0x61
  | .rainbow1 => .strip 0x62
  | .rainbow2 => .strip 0x63
  | .rainbow3 => .strip 0x64
  | .rainbow4 => .strip 0x65
  | .rainbow5 => .strip 0x66
  | .rainbow6 => .strip 0x67
  | .rainbow7 => .strip 0x68
  | .rainbow8 => .strip 0x69
  | .rainbow9 => .strip 0x6A
  | .rainbow10 => .strip 0x6B
  | .rainbow11 => .strip 0x6C
  | .rainbow12 => .strip 0x6D
  | .rainbow13 => .strip 0x6E
  | .rainbow14 => .strip 0x6F
  | .rainbow15 => .strip 0x70
  | .rainbow16 => .strip 0x71
  | .rainbow17 => .strip 0x72
  | .rainbow18 => .strip 0x73
  | .rainbow19 => .strip 0x74
  | .rainbow20 => .strip 0x75
  | .rainbow21 => .strip 0x76
  | .rainbow22 => .strip 0x77
  | .rainbow23 => .strip 0x78
  | .rainbow24 => .strip 0x79
  | .rainbow25 => .strip 0x7A
  | .gray0 => .strip 0x30
  | .gray1 => .strip 0x31
  | .gray2 => .strip 0x32
  | .gray3 => .strip 0x33
  | .gray4 => .strip 0x34
  | .gray5 => .strip 0x35
  | .gray6 => .strip 0x36
  | .gray7 => .strip 0x37
  | .gray8 => .strip 0x38
  | .gray9 => .strip 0x39
  | .allOff => .strip 0x58
  | .skipSpace => .strip 0x20
  | .skipOther ch => .strip ch
  | .setTarget index colour => .fade (.setTarget index colour)
  | .shiftOp => .fade .shiftOp
  | .tick => .fade .tick
  | .reset => .event .reset
  | .byteIn b => .event (.byteIn b)
  | .timerTick => .event .timerTick
  | .sclk => .event .sclk

/-! ### The words of the opcode table -/

/-- The states in the order of the table (R107). -/
def tableStates : List ParserState :=
  [.idle, .awaitingCRAfterPrompt, .waitingForLineFeed, .expectingA, .expectingT, .collectingCommand,
    .collectingMessage]

/-- The first state, in the table's order, with a row that names byte `b`. -/
def firstStateNaming (b : Byte) : List ParserState → Option ParserState
  | [] => none
  | ps :: rest => if (lookupRow (stateRows ps) b).isSome then some ps else firstStateNaming b rest

/-- The code whose row a bare word `v` selects. R107 says when a word selects a row of one format (and, for
BYTE, of one state), and settles no order across formats and states, so a word can be that of several rows.
The model takes the first row of the table, in the order of opcode_table.json, that is not a default row and
has `v AND mask = match` [DESIGN CHOICE, log entry 12]: BYTE rows before CMD, HEX and STRIP rows, and `Idle`
before the other states. So 0x41 is the parser's EXPA.A and not the unpacker's HEXLETTER_A, 0x1B and 0x0D are
the rows of `Idle`, and 0x30 to 0x39 are the unpacker's rows and not the grayscale rows. A word that no such
row takes is a byte arriving in `Idle` [DESIGN CHOICE, log entry 12]. No step uses this function.
A command word has `buf[0]` in its most significant byte (R107). -/
def tableCode (v : Nat) : Code :=
  let b : Byte := BitVec.ofNat 8 v
  let ch : Septet := BitVec.ofNat 7 v
  match firstStateNaming b tableStates with
  | some ps => .byte ps.code b
  | none =>
    if v % 2 ^ 48 = 0x2B434D47533D then .cmd textCmgs
    else if v % 2 ^ 48 = 0x2B4350494E3F then .cmd textCpin
    else if v % 2 ^ 24 = 0x5A3900 then .cmd (textZ9 .exactText)
    else if (lookupRow hexRows b).isSome then .hex b
    else if (lookupRow stripRows ch).isSome then .strip ch
    else .byte ParserState.idle.code b

/-- The instruction the decoder reads from a word of `nbits` bits numbered as the table numbers them; which row
a word of several rows gives is the model's choice [DESIGN CHOICE, log entry 12]. -/
def decodeTableWord (nbits w : Nat) : Option Instr :=
  match decode .exactText (tableCode (w % 2 ^ nbits)) with
  | .ok i => some i
  | .error _ => none

end Sys2Proof
end

