-- ==== Sys2Proof/Machine/Build.lean ====
section
/-! DEFINITION. The configuration that the machine after reset is built with. -/
namespace Sys2Proof.Machine

/-- `CAP = 192`, `FADE_SHIFT = 4`, `ENV_SKIP = 7`, `Z9_MATCH = exact` and `TICK_HZ = 50` are the spec's
defaults (R7). `N` has no default: 4 is the model's choice [DESIGN CHOICE, log entry 1]. The colour tables and
the times have no default either, and this build gives none, so they are free values (log entries 2, 4). Every
rule is modelled for every admitted configuration, and `State.resetWith` gives the state after reset for any. -/
def build : Config where
  capExtra := 176
  nPred := 3
  fadeShift := 4
  rainbow := none
  grayTail := none
  envSkip := 7
  z9Match := .exactText
  tickHz := 50
  pulseTimes := none
  wdtTimeout := none

end Sys2Proof.Machine
end

