-- ==== Sys2Proof/Machine/State.lean ====
section
/-! DEFINITION. The state of the block (R20), the environment's side of its ports (R9), the reasons a
step can stop, and the state after reset (R42). -/
namespace Sys2Proof.Machine

/-- One symbol of the strip stream (R251). -/
inductive Symbol
  | long
  | short
deriving DecidableEq, Repr

/-- Everything the block holds for one live LED `i`: slot `i` of the Current LED Array, Target
Descriptor `i` and colour `i` of the snapshot (R21, R32, R34). -/
structure Led where
  /-- `Cur[i]` (R21). -/
  cur : Colour
  /-- `T[i].tgt` (R32). -/
  tgt : Colour
  /-- `T[i].cnt`, the fade countdown (R32). -/
  cnt : BitVec 8
  /-- `T[i].step`, 8.8 fixed point with the direction in bit 0 (R33). -/
  step : Chan (BitVec 16)
  /-- `T[i].frac` (R32). -/
  frac : Chan Byte
  /-- `Snap[i]` (R34). -/
  snap : Colour
deriving DecidableEq, Repr

/-- All zero (R42). -/
def Led.afterReset : Led where
  cur := Colour.off
  tgt := Colour.off
  cnt := 0
  step := Chan.fill 0
  frac := Chan.fill 0
  snap := Colour.off

/-- The Command Line Buffer (R35) as the list of its bytes that differ from what an unlisted index
reads as, by strictly rising index. -/
abbrev Buffer := List Host.Cell

/-- The events the environment presents at one instant (R283). -/
structure Instant where
  reset : Bool
  sclk : Bool
  tick : Bool
  byteIn : Option Byte
deriving DecidableEq, Repr

/-- Why a step stops. The spec gives the block no fault (R275): each reason below stands for an access
to something that does not exist or was never written, and no state that meets the invariants of
R39 reaches one. All are safe: the model stops where the spec says nothing. -/
inductive Fault
  /-- Raised by a read of `buf[i]` with `i ≥ CAP`: there is no such byte (R35). Safe. -/
  | bufIndexOutOfRange (i : Nat)
  /-- Raised by a read of `buf[i]` that nothing has written since reset, whose value is unspecified
  (R42). Safe. -/
  | unwrittenByte (i : Nat)
  /-- Raised by a refill at byte `pos ≥ 3 * N` of the snapshot: there is no such byte (R34). Safe. -/
  | snapIndexOutOfRange (pos : Nat)
deriving DecidableEq, Repr

/-- Why an instruction has no meaning. -/
inductive Refusal
  /-- Raised by `exec` for an instruction that has no meaning yet. Safe. No arm raises it. -/
  | notModelled (mnemonic : String)
  /-- Raised by the dispatcher of one level when it is handed an instruction of another level. The
  decoder of that level never hands it one, so no step raises it. Safe. -/
  | notOfThisLevel
deriving DecidableEq, Repr

/-- The state: everything R20 lists, the running index of R193, and the environment's side of the
ports of R9 (the events not yet taken, and what the block has put out). -/
structure State where
  /-- The build's parameters (R7, R316); no step changes them. -/
  cfg : Config
  /-- `ps` (R24). -/
  ps : ParserState
  /-- `buf[0..CAP-1]` (R35). -/
  buf : Buffer
  /-- `len` (R29, R30). -/
  len : BitVec 8
  /-- `have_hi` (R28). -/
  haveHi : Bool
  /-- `hi_nib` (R29, R31). -/
  hiNib : BitVec 4
  /-- `wdt_armed` (R28). -/
  wdtArmed : Bool
  /-- `Cur[0]`, the scratch slot (R22). -/
  scratch : Colour
  /-- LEDs 1 to `N`, in order. -/
  leds : List Led
  /-- `tx_busy` (R28). -/
  txBusy : Bool
  /-- `tx_pos` (R29). -/
  txPos : BitVec 10
  /-- `tx_bits` (R29). -/
  txBits : BitVec 4
  /-- `tx_sr` (R29). -/
  txSr : BitVec 8
  /-- `idx`, the running LED index (R193). It is transient (R27): 1 between events. -/
  idx : BitVec 8
  /-- The model's own: the instants whose events the environment has yet to deliver, in order (R9). -/
  inputs : List Instant
  /-- The model's own: how many ties between a tick and a byte have been settled (R283). -/
  choice : Nat
  /-- The model's own record of the reply stream (R9, R12). -/
  replyOut : List Byte
  /-- The model's own record of the strip stream (R9, R12). -/
  stripOut : List Symbol
deriving DecidableEq, Repr

/-- The state after `RESET` of a block built with configuration `cfg` (R42, R310), nothing presented
and nothing put out. -/
def State.resetWith (cfg : Config) : State where
  cfg := cfg
  ps := .idle
  buf := []
  len := 0
  haveHi := false
  hiNib := 0
  wdtArmed := false
  scratch := Colour.off
  leds := List.replicate cfg.n Led.afterReset
  txBusy := false
  txPos := 0
  txBits := 0
  txSr := 0
  idx := 1
  inputs := []
  choice := 0
  replyOut := []
  stripOut := []

/-- The machine right after reset (R42). -/
def State.reset : State := State.resetWith build

end Sys2Proof.Machine
end

