-- ==== Sys2Proof/Machine/Ops.lean ====
section
/-! DEFINITION. The named operations over the registers, the Command Line Buffer and the outputs.
The block has no exception, so there is no entry and no return to model (R275, R284, R286). -/
namespace Sys2Proof.Machine

/-- What one instruction does. -/
abbrev Result := Host.Outcome State Fault Refusal

/-- One part of an instruction after another: a stop of the first is the stop of the whole. -/
def andThen (o : Result) (k : State → Result) : Result :=
  match o with
  | .next s => k s
  | .fault f => .fault f
  | .refused r => .refused r

/-! ### Registers and outputs -/

/-- `ps <- p` (R12). -/
def State.setPs (s : State) (p : ParserState) : State := { s with ps := p }

/-- `emit(r)`: appends bytes to the reply stream, in order (R12). -/
def State.emit (s : State) (r : List Byte) : State := { s with replyOut := s.replyOut ++ r }

/-- `sym(x)`: appends one symbol to the strip stream (R12). -/
def State.emitSymbol (s : State) (x : Symbol) : State := { s with stripOut := s.stripOut ++ [x] }

/-- `wdt_armed <- 1` (R144). -/
def State.armWatchdog (s : State) : State := { s with wdtArmed := true }

/-- `have_hi <- h; hi_nib <- n`. -/
def State.setNibble (s : State) (h : Bool) (n : BitVec 4) : State := { s with haveHi := h, hiNib := n }

/-- `Cur[0] <- c` (R22). -/
def State.stage (s : State) (c : Colour) : State := { s with scratch := c }

/-- The running LED index (R193). -/
def State.setIdx (s : State) (i : BitVec 8) : State := { s with idx := i }

/-- The live LEDs. -/
def State.setLeds (s : State) (l : List Led) : State := { s with leds := l }

/-- The transmitter's registers (R29). -/
def State.setTx (s : State) (busy : Bool) (pos : BitVec 10) (bits : BitVec 4) (sr : BitVec 8) : State :=
  { s with txBusy := busy, txPos := pos, txBits := bits, txSr := sr }

/-- The buffer and its length cursor. -/
def State.setBuffer (s : State) (b : Buffer) (n : BitVec 8) : State := { s with buf := b, len := n }

/-- What the environment has yet to deliver, and the count of settled ties. -/
def State.setInputs (s : State) (q : List Instant) (k : Nat) : State := { s with inputs := q, choice := k }

/-- `N`, the number of live LEDs (R7). -/
def State.n (s : State) : Nat := s.cfg.n

/-- LED `i` of the live array, `i` from 1; there is no descriptor 0 (R32). -/
def State.led (s : State) (i : Nat) : Option Led :=
  match i with
  | 0 => none
  | k + 1 => s.leds[k]?

/-! ### The Command Line Buffer -/

/-- What an index that is not listed reads as: 0x00 at index 0, which every reset and every clear
writes, and no value elsewhere, where R42 leaves the byte unspecified. -/
def unlistedByte (i : Nat) : Option Byte := if i = 0 then some 0x00 else none

/-- One byte of the buffer; `none` where nothing has been written since reset. -/
def bufferRead : Buffer → Nat → Option Byte
  | [], i => unlistedByte i
  | (j, v) :: rest, i => if i = j then some v else bufferRead rest i

/-- The cell of a written byte, if it has to be listed. -/
def bufferCell (i : Nat) (v : Byte) : Buffer := if unlistedByte i = some v then [] else [(i, v)]

/-- The buffer with one byte written, in canonical form. -/
def bufferWrite : Buffer → Nat → Byte → Buffer
  | [], i, v => bufferCell i v
  | (j, w) :: rest, i, v =>
    if i < j then bufferCell i v ++ (j, w) :: rest
    else if i = j then bufferCell i v ++ rest
    else (j, w) :: bufferWrite rest i v

/-- Every index of the list is above `lo`, they rise strictly, and no cell says what an unlisted index
reads as. -/
def bufferWfAbove : Option Nat → Buffer → Bool
  | _, [] => true
  | lo, (i, v) :: rest =>
    (match lo with
      | none => true
      | some l => decide (l < i)) && decide (unlistedByte i ≠ some v) && bufferWfAbove (some i) rest

/-- The canonical form. -/
def Buffer.wf (b : Buffer) : Bool := bufferWfAbove none b

/-- `buf[i]`, one byte, or the fault its read raises (R35, R42). -/
def State.readBuf (s : State) (i : Nat) : Except Fault Byte :=
  if i < s.cfg.cap then
    match bufferRead s.buf i with
    | some v => .ok v
    | none => .error (.unwrittenByte i)
  else .error (.bufIndexOutOfRange i)

/-- `buf[i .. i + k - 1]`, in order. -/
def State.readRange (s : State) : Nat → Nat → Except Fault (List Byte)
  | _, 0 => .ok []
  | i, k + 1 =>
    match s.readBuf i with
    | .error f => .error f
    | .ok v =>
      match s.readRange (i + 1) k with
      | .error f => .error f
      | .ok vs => .ok (v :: vs)

/-- `BufClear()` (R62). -/
def State.bufClear (s : State) : State := s.setBuffer (bufferWrite s.buf 0 0x00) 0

/-- `BufAppend(v, term)` (R63). -/
def State.bufAppend (s : State) (v : Byte) (term : Bool) : State :=
  if s.len.toNat < s.cfg.cap - 1 then
    let written := bufferWrite s.buf s.len.toNat v
    s.setBuffer (if term then bufferWrite written (s.len.toNat + 1) 0x00 else written) (s.len + 1)
  else s

end Sys2Proof.Machine
end

