-- ==== Sys2Proof/Machine/Flags.lean ====
section
/-! DEFINITION. The one-bit flags (R28): the direction of a fade, the nibble flag, the end of a frame.
There are no condition codes, and arithmetic sets no flag as a side effect. -/
namespace Sys2Proof.Machine

/-- The direction of a fade from `cur` to `tgt`: `true` (1) when the channel falls (R224). -/
def fallsTo (cur tgt : Byte) : Bool := decide (tgt.toNat < cur.toNat)

/-- The direction stored in bit 0 of a step (R33, R224). -/
def stepFalls (step : BitVec 16) : Bool := step.getLsbD 0

/-- `have_hi` after a message character: it toggles on each, whatever its value (R171). -/
def nibbleFlagAfter (haveHi : Bool) : Bool := !haveHi

/-- Whether a frame of `n` LEDs is over, with `bits` bits of the working byte left and the cursor at
`pos` (R254, R256). -/
def frameOver (n : Nat) (pos : BitVec 10) (bits : BitVec 4) : Bool :=
  decide (bits = 0) && decide (pos.toNat = 3 * n)

end Sys2Proof.Machine
end

