-- ==== Sys2Proof/Machine/Operands.lean ====
section
/-! DEFINITION. The operand forms: the text a dispatch compares, the nibble of a message character, the
table colours, the envelope and its septets, the bytes of the snapshot. -/
namespace Sys2Proof.Machine

/-! ### The command text (R141) -/

/-- The bytes `buf[i ..]` that can be read, at most `k` of them. -/
def State.readablePrefix (s : State) : Nat → Nat → List Byte
  | _, 0 => []
  | i, k + 1 =>
    match s.readBuf i with
    | .error _ => []
    | .ok v => v :: s.readablePrefix (i + 1) k

/-- `buf[0..5]`, what dispatch may read (R66), up to the first byte that cannot be read. -/
def State.commandText (s : State) : List Byte := s.readablePrefix 0 6

/-! ### Message characters (R96) -/

/-- `nib(c)`: the nibble of a message character (R96, R175, R178, R179). -/
def nib (c : Byte) : BitVec 4 :=
  if inRange c 0x30 0x39 then BitVec.ofNat 4 (c.toNat - 0x30)
  else if inRange c 0x41 0x46 then BitVec.ofNat 4 (c.toNat - 0x37)
  else 0

/-- The byte of a pair, high nibble first (R67, R173). -/
def pairByte (hi lo : BitVec 4) : Byte := hi ++ lo

/-! ### The colour tables (R36, R102) -/

/-- `RAINBOW[k]`: the build's table, or a free value where the build gives none (R36). -/
def rainbowColour (cfg : Config) (k : Fin 26) : Colour :=
  match cfg.rainbow with
  | some table => table.get k
  | none => Config.openRainbow k

/-- `GRAY[d]`: entry 0 is off in every build; the others are the build's, or free values (R36). -/
def grayColour (cfg : Config) (d : Fin 10) : Colour :=
  if h : d = 0 then Colour.off
  else
    match cfg.grayTail with
    | some table => table.get (d.pred h)
    | none => Config.openGray (d.pred h)

/-! ### The envelope and its septets (R98 to R100, R185 to R190) -/

/-- Byte `j` of the septet data, 0 past its end. -/
def dataByte (d : List Byte) (j : Nat) : Byte := d.getD j 0

/-- Character `i` of the septet data `d`, least significant bit first (R68, R99). -/
def septetAt (d : List Byte) (i : Nat) : Septet :=
  let q := 7 * i / 8
  let r := 7 * i % 8
  let hi : Byte := if r ≤ 1 then 0 else dataByte d (q + 1)
  let w : BitVec 16 := hi ++ dataByte d q
  (w >>> r).setWidth 7

/-- How many characters `m` data bytes and a declared count give (R100, R190). -/
def septetCount (count m : Nat) : Nat := min count (8 * m / 7)

/-- The characters of data `d` with declared count `count`, in order (R99, R100). -/
def septets (d : List Byte) (count : Nat) : List Septet :=
  (List.range (septetCount count d.length)).map (septetAt d)

/-- The index of the payload-length byte (R186): `ceil2(buf[3]) + ENV_SKIP`. -/
def countIndex (cfg : Config) (alen : Byte) : Nat := ceil2 alen.toNat + cfg.envSkip

/-- The characters of the message in the buffer (R185, R187). -/
def State.messageChars (s : State) : Except Fault (List Septet) :=
  if s.len.toNat < 4 then .ok []
  else
    match s.readBuf 3 with
    | .error f => .error f
    | .ok alen =>
      let udl := countIndex s.cfg alen
      if s.len.toNat ≤ udl then .ok []
      else
        match s.readBuf udl with
        | .error f => .error f
        | .ok count =>
          match s.readRange (udl + 1) (s.len.toNat - (udl + 1)) with
          | .error f => .error f
          | .ok d => .ok (septets d count.toNat)

/-! ### The sliding window of R188 and R189, the reference form of the same decoding -/

/-- The window between two characters: the source bytes left, `bits` and `carry` (R188). -/
structure Window where
  src : List Byte
  bits : BitVec 3
  carry : Septet
deriving DecidableEq, Repr

/-- One character out of the window, or none when the input is exhausted (R189). -/
def Window.char (w : Window) : Option (Septet × Window) :=
  if w.bits = 0 then some (w.carry, ⟨w.src, 7, 0⟩)
  else
    match w.src with
    | [] => none
    | cur :: src =>
      let b := w.bits.toNat
      let shifted : BitVec 16 := (cur.setWidth 16) <<< (7 - b) ||| w.carry.setWidth 16
      some (shifted.setWidth 7, ⟨src, w.bits - 1, (cur >>> b).setWidth 7⟩)

/-- The characters the window gives while fewer than `count` are produced (R189). -/
def Window.chars : Nat → Window → List Septet
  | 0, _ => []
  | k + 1, w =>
    match w.char with
    | none => []
    | some (ch, w') => ch :: Window.chars k w'

/-- The decoding of R188 and R189, from the start of the data. -/
def slidingSeptets (d : List Byte) (count : Nat) : List Septet := Window.chars count ⟨d, 7, 0⟩

/-! ### Packing (R121), the inverse a sender uses -/

/-- The number whose bits are the packed characters: `sum over i of s_i * 2^(7i)` (R121). -/
def packedNumber : List Septet → Nat
  | [] => 0
  | ch :: rest => ch.toNat + 2 ^ 7 * packedNumber rest

/-- The packed data bytes of a text: byte `j` is bits `8j+7 .. 8j` of the number (R121). -/
def packSeptets (text : List Septet) : List Byte :=
  (List.range ((7 * text.length + 7) / 8)).map fun j => BitVec.ofNat 8 (packedNumber text / 2 ^ (8 * j))

/-! ### The snapshot as bytes (R74, R255) -/

/-- Byte `j` of the snapshot, `Snap[1 + j div 3][j mod 3]`, where there is one. -/
def State.snapByte (s : State) (j : Nat) : Option Byte :=
  match s.led (1 + j / 3) with
  | none => none
  | some l => some (l.snap.get (Fin.ofNat 3 (j % 3)))

end Sys2Proof.Machine
end

