-- ==== Sys2Proof/Machine/Fade.lean ====
section
/-! DEFINITION. The Fade Engine and the meanings of the FADE rows (43_fade_engine.md). -/
namespace Sys2Proof.Machine

/-! ### SetTarget (R220) -/

/-- `dist`, the distance of a channel from its target (R223). -/
def channelDist (cur tgt : Byte) : Nat :=
  if cur.toNat ≤ tgt.toNat then tgt.toNat - cur.toNat else cur.toNat - tgt.toNat

/-- `(dist << (8 - FADE_SHIFT)) | dir`, 16 bits (R220, R223, R224). -/
def fadeStep (shift : Fin 5) (cur tgt : Byte) : BitVec 16 :=
  BitVec.ofNat 16 (channelDist cur tgt) <<< (8 - shift.val) ||| (if fallsTo cur tgt then 1 else 0)

/-- One LED given a new target: target, countdown, steps, fractions (R222 to R225). -/
def Led.retarget (cfg : Config) (colour : Colour) (l : Led) : Led :=
  { l with
    tgt := colour
    cnt := BitVec.ofNat 8 cfg.fadeTicks
    step := Chan.map2 (fadeStep cfg.fadeShift) l.cur colour
    frac := Chan.fill 0 }

/-- `SetTarget(index, colour)` on the list of LEDs: index 0 is every live LED, 1 to `N` is one LED,
above `N` is none (R220, R221). -/
def retargetLeds (cfg : Config) (index : Nat) (colour : Colour) (l : List Led) : List Led :=
  match index with
  | 0 => l.map (Led.retarget cfg colour)
  | k + 1 => if k + 1 ≤ cfg.n then l.modify k (Led.retarget cfg colour) else l

/-- `SetTarget(index, colour)` (R220). -/
def State.setTarget (s : State) (index : Byte) (colour : Colour) : State :=
  s.setLeds (retargetLeds s.cfg index.toNat colour s.leds)

/-! ### Shift (R226) -/

/-- The loop of `Shift()` from LED `i` down to LED 2 (R226): each LED takes the target of the LED
before it, which no earlier turn of the loop has touched. -/
def shiftLoop (cfg : Config) : Nat → List Led → List Led
  | 0, l => l
  | 1, l => l
  | i + 2, l =>
    match l[i]? with
    | none => shiftLoop cfg (i + 1) l
    | some prev => shiftLoop cfg (i + 1) (retargetLeds cfg (i + 2) prev.tgt l)

/-- `Shift()` (R226). -/
def State.shiftTargets (s : State) : State := s.setLeds (shiftLoop s.cfg s.n s.leds)

/-! ### Tick (R228) -/

/-- `sum`, 9 bits (R230). -/
def laneSum (step : BitVec 16) (frac : Byte) : Nat := frac.toNat + step.toNat % 256

/-- The new fraction, `sum[7:0]` (R230). -/
def laneFrac (step : BitVec 16) (frac : Byte) : Byte := BitVec.ofNat 8 (laneSum step frac)

/-- `delta`, the whole units of this tick: `s[15:8] + sum[8]` (R230). -/
def laneDelta (step : BitVec 16) (frac : Byte) : Nat := step.toNat / 256 + laneSum step frac / 256

/-- The new channel value, modulo 256 (R230). -/
def laneCur (cur : Byte) (step : BitVec 16) (frac : Byte) : Byte :=
  if stepFalls step then cur - BitVec.ofNat 8 (laneDelta step frac)
  else cur + BitVec.ofNat 8 (laneDelta step frac)

/-- `Tick` of one LED: at rest the exact target is written (R229), in a fade one step is taken (R230). -/
def Led.tick (l : Led) : Led :=
  if l.cnt = 0 then { l with cur := l.tgt }
  else
    { l with
      cnt := l.cnt - 1
      cur := Chan.map3 laneCur l.cur l.step l.frac
      frac := Chan.map2 laneFrac l.step l.frac }

/-- `Tick()` (R228). -/
def State.tickLeds (s : State) : State := s.setLeds (s.leds.map Led.tick)

/-! ### The rows -/

/-- SETTARGET (R220). -/
def execSetTarget (index : Byte) (colour : Colour) (s : State) : Result := .next (s.setTarget index colour)

/-- SHIFT_OP (R226). -/
def execShiftOp (s : State) : Result := .next s.shiftTargets

/-- TICK (R228). -/
def execTick (s : State) : Result := .next s.tickLeds

end Sys2Proof.Machine
end

