-- ==== Sys2Proof/Machine/Hex.lean ====
section
/-! DEFINITION. The hex-nibble unpacker and the meanings of the HEX rows (41_hex_unpacker.md). -/
namespace Sys2Proof.Machine

/-- `HexChar` once the nibble is known: the first of a pair is stored, the second completes a byte
(R171 to R174). -/
def State.feedNibble (s : State) (n : BitVec 4) : State :=
  if s.haveHi then (s.bufAppend (pairByte s.hiNib n) false).setNibble (nibbleFlagAfter s.haveHi) s.hiNib
  else s.setNibble (nibbleFlagAfter s.haveHi) n

/-- HEXDIGIT_0: nibble 0 (R175). -/
def execHexDigit0 (s : State) : Result := .next (s.feedNibble 0)

/-- HEXDIGIT_1: nibble 1 (R175). -/
def execHexDigit1 (s : State) : Result := .next (s.feedNibble 1)

/-- HEXDIGIT_2: nibble 2 (R175). -/
def execHexDigit2 (s : State) : Result := .next (s.feedNibble 2)

/-- HEXDIGIT_3: nibble 3 (R175). -/
def execHexDigit3 (s : State) : Result := .next (s.feedNibble 3)

/-- HEXDIGIT_4: nibble 4 (R175). -/
def execHexDigit4 (s : State) : Result := .next (s.feedNibble 4)

/-- HEXDIGIT_5: nibble 5 (R175). -/
def execHexDigit5 (s : State) : Result := .next (s.feedNibble 5)

/-- HEXDIGIT_6: nibble 6 (R175). -/
def execHexDigit6 (s : State) : Result := .next (s.feedNibble 6)

/-- HEXDIGIT_7: nibble 7 (R175). -/
def execHexDigit7 (s : State) : Result := .next (s.feedNibble 7)

/-- HEXDIGIT_8: nibble 8 (R175). -/
def execHexDigit8 (s : State) : Result := .next (s.feedNibble 8)

/-- HEXDIGIT_9: nibble 9 (R175). -/
def execHexDigit9 (s : State) : Result := .next (s.feedNibble 9)

/-- HEXLETTER_A: nibble 10 (R178). -/
def execHexLetterA (s : State) : Result := .next (s.feedNibble 10)

/-- HEXLETTER_B: nibble 11 (R178). -/
def execHexLetterB (s : State) : Result := .next (s.feedNibble 11)

/-- HEXLETTER_C: nibble 12 (R178). -/
def execHexLetterC (s : State) : Result := .next (s.feedNibble 12)

/-- HEXLETTER_D: nibble 13 (R178). -/
def execHexLetterD (s : State) : Result := .next (s.feedNibble 13)

/-- HEXLETTER_E: nibble 14 (R178). -/
def execHexLetterE (s : State) : Result := .next (s.feedNibble 14)

/-- HEXLETTER_F: nibble 15 (R178). -/
def execHexLetterF (s : State) : Result := .next (s.feedNibble 15)

/-- HEXOTHER: any other character, with the nibble R96 gives it, which is 0 (R179). -/
def execHexOther (b : Byte) (s : State) : Result := .next (s.feedNibble (nib b))

/-- The meaning of a HEX row. -/
def runHexRow (i : Instr) (s : State) : Result :=
  match i with
  | .hexDigit0 => execHexDigit0 s
  | .hexDigit1 => execHexDigit1 s
  | .hexDigit2 => execHexDigit2 s
  | .hexDigit3 => execHexDigit3 s
  | .hexDigit4 => execHexDigit4 s
  | .hexDigit5 => execHexDigit5 s
  | .hexDigit6 => execHexDigit6 s
  | .hexDigit7 => execHexDigit7 s
  | .hexDigit8 => execHexDigit8 s
  | .hexDigit9 => execHexDigit9 s
  | .hexLetterA => execHexLetterA s
  | .hexLetterB => execHexLetterB s
  | .hexLetterC => execHexLetterC s
  | .hexLetterD => execHexLetterD s
  | .hexLetterE => execHexLetterE s
  | .hexLetterF => execHexLetterF s
  | .hexOther b => execHexOther b s
  | _ => .refused .notOfThisLevel

/-- `HexChar(b)`: the row that `b` selects (R171). -/
def hexChar (b : Byte) (s : State) : Result := runHexRow (hexRow b) s

end Sys2Proof.Machine
end

