-- ==== Sys2Proof/Machine/Strip.lean ====
section
/-! DEFINITION. The Command Interpreter and the meanings of the STRIP rows (42_septet_interpreter.md). -/
namespace Sys2Proof.Machine

/-- `idx <- idx + 1`, modulo 256 (R193). -/
def State.advance (s : State) : State := s.setIdx (s.idx + 1)

/-- Stage a colour, apply it to the LED at the running index, advance (R196, R197). -/
def State.paint (s : State) (colour : Colour) : State :=
  ((s.stage colour).setTarget s.idx colour).advance

/-- SHIFT: `Shift()`, then the index returns to 1 (R194). -/
def execShift (s : State) : Result := .next (s.shiftTargets.setIdx 1)

/-- RAINBOW_0 (R196). -/
def execRainbow0 (s : State) : Result := .next (s.paint (rainbowColour s.cfg 0))

/-- RAINBOW_1 (R196). -/
def execRainbow1 (s : State) : Result := .next (s.paint (rainbowColour s.cfg 1))

/-- RAINBOW_2 (R196). -/
def execRainbow2 (s : State) : Result := .next (s.paint (rainbowColour s.cfg 2))

/-- RAINBOW_3 (R196). -/
def execRainbow3 (s : State) : Result := .next (s.paint (rainbowColour s.cfg 3))

/-- RAINBOW_4 (R196). -/
def execRainbow4 (s : State) : Result := .next (s.paint (rainbowColour s.cfg 4))

/-- RAINBOW_5 (R196). -/
def execRainbow5 (s : State) : Result := .next (s.paint (rainbowColour s.cfg 5))

/-- RAINBOW_6 (R196). -/
def execRainbow6 (s : State) : Result := .next (s.paint (rainbowColour s.cfg 6))

/-- RAINBOW_7 (R196). -/
def execRainbow7 (s : State) : Result := .next (s.paint (rainbowColour s.cfg 7))

/-- RAINBOW_8 (R196). -/
def execRainbow8 (s : State) : Result := .next (s.paint (rainbowColour s.cfg 8))

/-- RAINBOW_9 (R196). -/
def execRainbow9 (s : State) : Result := .next (s.paint (rainbowColour s.cfg 9))

/-- RAINBOW_10 (R196). -/
def execRainbow10 (s : State) : Result := .next (s.paint (rainbowColour s.cfg 10))

/-- RAINBOW_11 (R196). -/
def execRainbow11 (s : State) : Result := .next (s.paint (rainbowColour s.cfg 11))

/-- RAINBOW_12 (R196). -/
def execRainbow12 (s : State) : Result := .next (s.paint (rainbowColour s.cfg 12))

/-- RAINBOW_13 (R196). -/
def execRainbow13 (s : State) : Result := .next (s.paint (rainbowColour s.cfg 13))

/-- RAINBOW_14 (R196). -/
def execRainbow14 (s : State) : Result := .next (s.paint (rainbowColour s.cfg 14))

/-- RAINBOW_15 (R196). -/
def execRainbow15 (s : State) : Result := .next (s.paint (rainbowColour s.cfg 15))

/-- RAINBOW_16 (R196). -/
def execRainbow16 (s : State) : Result := .next (s.paint (rainbowColour s.cfg 16))

/-- RAINBOW_17 (R196). -/
def execRainbow17 (s : State) : Result := .next (s.paint (rainbowColour s.cfg 17))

/-- RAINBOW_18 (R196). -/
def execRainbow18 (s : State) : Result := .next (s.paint (rainbowColour s.cfg 18))

/-- RAINBOW_19 (R196). -/
def execRainbow19 (s : State) : Result := .next (s.paint (rainbowColour s.cfg 19))

/-- RAINBOW_20 (R196). -/
def execRainbow20 (s : State) : Result := .next (s.paint (rainbowColour s.cfg 20))

/-- RAINBOW_21 (R196). -/
def execRainbow21 (s : State) : Result := .next (s.paint (rainbowColour s.cfg 21))

/-- RAINBOW_22 (R196). -/
def execRainbow22 (s : State) : Result := .next (s.paint (rainbowColour s.cfg 22))

/-- RAINBOW_23 (R196). -/
def execRainbow23 (s : State) : Result := .next (s.paint (rainbowColour s.cfg 23))

/-- RAINBOW_24 (R196). -/
def execRainbow24 (s : State) : Result := .next (s.paint (rainbowColour s.cfg 24))

/-- RAINBOW_25 (R196). -/
def execRainbow25 (s : State) : Result := .next (s.paint (rainbowColour s.cfg 25))

/-- GRAY_0 (R197). -/
def execGray0 (s : State) : Result := .next (s.paint (grayColour s.cfg 0))

/-- GRAY_1 (R197). -/
def execGray1 (s : State) : Result := .next (s.paint (grayColour s.cfg 1))

/-- GRAY_2 (R197). -/
def execGray2 (s : State) : Result := .next (s.paint (grayColour s.cfg 2))

/-- GRAY_3 (R197). -/
def execGray3 (s : State) : Result := .next (s.paint (grayColour s.cfg 3))

/-- GRAY_4 (R197). -/
def execGray4 (s : State) : Result := .next (s.paint (grayColour s.cfg 4))

/-- GRAY_5 (R197). -/
def execGray5 (s : State) : Result := .next (s.paint (grayColour s.cfg 5))

/-- GRAY_6 (R197). -/
def execGray6 (s : State) : Result := .next (s.paint (grayColour s.cfg 6))

/-- GRAY_7 (R197). -/
def execGray7 (s : State) : Result := .next (s.paint (grayColour s.cfg 7))

/-- GRAY_8 (R197). -/
def execGray8 (s : State) : Result := .next (s.paint (grayColour s.cfg 8))

/-- GRAY_9 (R197). -/
def execGray9 (s : State) : Result := .next (s.paint (grayColour s.cfg 9))

/-- ALLOFF: stage off and target every live LED to it; the index advances (R198). -/
def execAllOff (s : State) : Result := .next (((s.stage (grayColour s.cfg 0)).setTarget 0 (grayColour s.cfg 0)).advance)

/-- SKIP_SPACE (R195). -/
def execSkipSpace (s : State) : Result := .next s.advance

/-- SKIP_OTHER: the same effect for every other character (R199). -/
def execSkipOther (_ch : Septet) (s : State) : Result := .next s.advance

/-- The meaning of a STRIP row. -/
def runStripRow (i : Instr) (s : State) : Result :=
  match i with
  | .shift => execShift s
  | .rainbow0 => execRainbow0 s
  | .rainbow1 => execRainbow1 s
  | .rainbow2 => execRainbow2 s
  | .rainbow3 => execRainbow3 s
  | .rainbow4 => execRainbow4 s
  | .rainbow5 => execRainbow5 s
  | .rainbow6 => execRainbow6 s
  | .rainbow7 => execRainbow7 s
  | .rainbow8 => execRainbow8 s
  | .rainbow9 => execRainbow9 s
  | .rainbow10 => execRainbow10 s
  | .rainbow11 => execRainbow11 s
  | .rainbow12 => execRainbow12 s
  | .rainbow13 => execRainbow13 s
  | .rainbow14 => execRainbow14 s
  | .rainbow15 => execRainbow15 s
  | .rainbow16 => execRainbow16 s
  | .rainbow17 => execRainbow17 s
  | .rainbow18 => execRainbow18 s
  | .rainbow19 => execRainbow19 s
  | .rainbow20 => execRainbow20 s
  | .rainbow21 => execRainbow21 s
  | .rainbow22 => execRainbow22 s
  | .rainbow23 => execRainbow23 s
  | .rainbow24 => execRainbow24 s
  | .rainbow25 => execRainbow25 s
  | .gray0 => execGray0 s
  | .gray1 => execGray1 s
  | .gray2 => execGray2 s
  | .gray3 => execGray3 s
  | .gray4 => execGray4 s
  | .gray5 => execGray5 s
  | .gray6 => execGray6 s
  | .gray7 => execGray7 s
  | .gray8 => execGray8 s
  | .gray9 => execGray9 s
  | .allOff => execAllOff s
  | .skipSpace => execSkipSpace s
  | .skipOther ch => execSkipOther ch s
  | _ => .refused .notOfThisLevel

/-- `StripCommand` on each character in order (R185, R202). -/
def runStrip : List Septet → State → Result
  | [], s => .next s
  | ch :: rest, s => andThen (runStripRow (stripRow ch) s) (runStrip rest)

/-- `RunInterpreter()` (R185): the index starts at 1, and does not survive the run (R193). -/
def runInterpreter (s : State) : Result :=
  match s.messageChars with
  | .error f => .fault f
  | .ok chars => andThen (runStrip chars (s.setIdx 1)) fun t => .next (t.setIdx 1)

end Sys2Proof.Machine
end

