-- ==== Sys2Proof/Machine/Parser.lean ====
section
/-! DEFINITION. The Command Parser: the meanings of the CMD and BYTE rows (40_parser.md). A row's meaning
holds all three parts of R131 for its byte: the echo, the escape, the arm of the state. -/
namespace Sys2Proof.Machine

/-! ### The command texts (R142 to R146) -/

/-- The generic `OK` (R146). -/
def State.acknowledge (s : State) : State := (s.emit replyOk).setPs .waitingForLineFeed

/-- `+CMGS=` (R142). -/
def execCmgs (s : State) : Result :=
  .next (((s.emit replyPrompt).bufClear.setNibble false 0).setPs .collectingMessage)

/-- `+CPIN?` (R143, R146). -/
def execCpin (s : State) : Result := .next (s.emit replyStatus).acknowledge

/-- `Z9` (R144, R146). -/
def execZ9 (s : State) : Result := .next s.armWatchdog.acknowledge

/-- Any other text (R145, R146). -/
def execOtherCmd (s : State) : Result := .next s.acknowledge

/-- The meaning of a CMD row. -/
def runCmdRow (i : Instr) (s : State) : Result :=
  match i with
  | .cmgs => execCmgs s
  | .cpin => execCpin s
  | .z9 => execZ9 s
  | .otherCmd => execOtherCmd s
  | _ => .refused .notOfThisLevel

/-- The dispatch on the accumulated text (R137, R141). A comparison that comes to a byte nothing has
written faults; while `buf[len] = 0` none does (R66). -/
def dispatch (s : State) : Result :=
  match cmdRow s.cfg.z9Match s.commandText with
  | some i => runCmdRow i s
  | none => .fault (.unwrittenByte s.commandText.length)

/-! ### The bytes, state by state (R131 to R140, R147) -/

/-- IDLE.ESC: `ps <- Idle`, nothing else (R147). -/
def execIdleEsc (s : State) : Result := .next (s.setPs .idle)

/-- IDLE.CR (R131, R132). -/
def execIdleCr (s : State) : Result := .next ((s.emit replyEcho).setPs .waitingForLineFeed)

/-- IDLE.OTHER (R132). -/
def execIdleOther (_b : Byte) (s : State) : Result := .next (s.setPs .idle)

/-- ACR.ESC: `ps <- Idle`, nothing else (R147). -/
def execAcrEsc (s : State) : Result := .next (s.setPs .idle)

/-- ACR.CR (R131, R133). -/
def execAcrCr (s : State) : Result := .next ((s.emit replyEcho).setPs .waitingForLineFeed)

/-- ACR.OTHER (R133). -/
def execAcrOther (_b : Byte) (s : State) : Result := .next (s.setPs .idle)

/-- WLF.ESC: `ps <- Idle`, nothing else (R147). -/
def execWlfEsc (s : State) : Result := .next (s.setPs .idle)

/-- WLF.CR: echoed, and a wrong byte here (R131, R134, R148). -/
def execWlfCr (s : State) : Result := .next ((s.emit replyEcho).setPs .idle)

/-- WLF.LF (R134). -/
def execWlfLf (s : State) : Result := .next (s.setPs .expectingA)

/-- WLF.OTHER (R134). -/
def execWlfOther (_b : Byte) (s : State) : Result := .next (s.setPs .idle)

/-- EXPA.ESC: `ps <- Idle`, nothing else (R147). -/
def execExpaEsc (s : State) : Result := .next (s.setPs .idle)

/-- EXPA.CR: echoed, and a wrong byte here (R131, R135, R148). -/
def execExpaCr (s : State) : Result := .next ((s.emit replyEcho).setPs .idle)

/-- EXPA.A (R135). -/
def execExpaA (s : State) : Result := .next (s.setPs .expectingT)

/-- EXPA.OTHER (R135). -/
def execExpaOther (_b : Byte) (s : State) : Result := .next (s.setPs .idle)

/-- EXPT.ESC: `ps <- Idle`, nothing else (R147). -/
def execExptEsc (s : State) : Result := .next (s.setPs .idle)

/-- EXPT.CR: echoed, and a wrong byte here (R131, R136, R148). -/
def execExptCr (s : State) : Result := .next ((s.emit replyEcho).setPs .idle)

/-- EXPT.T (R136). -/
def execExptT (s : State) : Result := .next (s.bufClear.setPs .collectingCommand)

/-- EXPT.OTHER (R136). -/
def execExptOther (_b : Byte) (s : State) : Result := .next (s.setPs .idle)

/-- CC.ESC: `ps <- Idle`, nothing else (R147). -/
def execCcEsc (s : State) : Result := .next (s.setPs .idle)

/-- CC.CR: echo, then dispatch (R131, R137). -/
def execCcCr (s : State) : Result := dispatch (s.emit replyEcho)

/-- CC.OTHER (R138). -/
def execCcOther (b : Byte) (s : State) : Result := .next ((s.bufAppend b true).setPs .collectingCommand)

/-- CM.ESC: `ps <- Idle`, nothing else (R147). -/
def execCmEsc (s : State) : Result := .next (s.setPs .idle)

/-- CM.CR: echoed, and counted as a character (R131, R139, R148). -/
def execCmCr (s : State) : Result := 
  andThen (hexChar byteCR (s.emit replyEcho)) fun t => .next (t.setPs .collectingMessage)

/-- CM.SUB: the interpreter to its end, then `OK`, then the state (R139). -/
def execCmSub (s : State) : Result := 
  andThen (runInterpreter s) fun t => .next ((t.emit replyOk).setPs .idle)

/-- CM.OTHER (R139). -/
def execCmOther (b : Byte) (s : State) : Result := 
  andThen (hexChar b s) fun t => .next (t.setPs .collectingMessage)

/-- The meaning of a BYTE row. -/
def runByteRow (i : Instr) (s : State) : Result :=
  match i with
  | .idleEsc => execIdleEsc s
  | .idleCr => execIdleCr s
  | .idleOther b => execIdleOther b s
  | .acrEsc => execAcrEsc s
  | .acrCr => execAcrCr s
  | .acrOther b => execAcrOther b s
  | .wlfEsc => execWlfEsc s
  | .wlfCr => execWlfCr s
  | .wlfLf => execWlfLf s
  | .wlfOther b => execWlfOther b s
  | .expaEsc => execExpaEsc s
  | .expaCr => execExpaCr s
  | .expaA => execExpaA s
  | .expaOther b => execExpaOther b s
  | .exptEsc => execExptEsc s
  | .exptCr => execExptCr s
  | .exptT => execExptT s
  | .exptOther b => execExptOther b s
  | .ccEsc => execCcEsc s
  | .ccCr => execCcCr s
  | .ccOther b => execCcOther b s
  | .cmEsc => execCmEsc s
  | .cmCr => execCmCr s
  | .cmSub => execCmSub s
  | .cmOther b => execCmOther b s
  | _ => .refused .notOfThisLevel

end Sys2Proof.Machine
end

