-- ==== Sys2Proof/Machine/Transmit.lean ====
section
/-! DEFINITION. The Strip Transmitter: the trigger and one step of the pulse-emission path
(44_strip_transmitter.md). -/
namespace Sys2Proof.Machine

/-- The snapshot of one LED (R252). -/
def Led.capture (l : Led) : Led := { l with snap := l.cur }

/-- The trigger, the first action of a `TIMER_TICK` (R252); while a frame is in progress it does
nothing (R260). -/
def State.trigger (s : State) : State :=
  if s.txBusy then s else (s.setLeds (s.leds.map Led.capture)).setTx true 0 0 s.txSr

/-- The symbol of a data bit (R106, R254). -/
def symbolOf (bit : Bool) : Symbol := if bit then .long else .short

/-- The second half of an `SCLK` step, with `bits` bits of `sr` to go and the cursor at `pos`: one
symbol out, most significant bit first, and the end of the frame (R254, R256, R257). -/
def State.shiftOut (s : State) (pos : BitVec 10) (bits : BitVec 4) (sr : BitVec 8) : State :=
  (s.emitSymbol (symbolOf sr.msb)).setTx (!frameOver s.n pos (bits - 1)) pos (bits - 1) (sr <<< 1)

/-- One step of the pulse-emission path (R254, R255, R261). -/
def pulseStep (s : State) : Result :=
  if s.txBusy then
    if s.txBits = 0 then
      match s.snapByte s.txPos.toNat with
      | some v => .next (s.shiftOut (s.txPos + 1) 8 v)
      | none => .fault (.snapIndexOutOfRange s.txPos.toNat)
    else .next (s.shiftOut s.txPos s.txBits s.txSr)
  else .next s

end Sys2Proof.Machine
end

