-- ==== Sys2Proof/Machine/Events.lean ====
section
/-! DEFINITION. The meanings of the EVENT rows: the four input events, each one atomic step (R9). -/
namespace Sys2Proof.Machine

/-- RESET: every piece of the block's state takes its reset value; nothing is put out, and what was put
out stays (R310, R313). The environment's side of the ports is not the block's state (R20). -/
def execReset (s : State) : Result :=
  .next
    { State.resetWith s.cfg with
      inputs := s.inputs
      choice := s.choice
      replyOut := s.replyOut
      stripOut := s.stripOut }

/-- BYTE_IN: the row that `ps` and the byte select (R131, R140). -/
def execByteIn (b : Byte) (s : State) : Result := runByteRow (byteRow s.ps b) s

/-- TIMER_TICK: the trigger, then `Tick()` (R252, R228). -/
def execTimerTick (s : State) : Result := .next s.trigger.tickLeds

/-- SCLK (R254). -/
def execSclk (s : State) : Result := pulseStep s

end Sys2Proof.Machine
end

