-- ==== Sys2Proof/Machine/Dispatch.lean ====
section
/-! DEFINITION. The meaning of every instruction. -/
namespace Sys2Proof.Machine

def exec (i : Instr) (s : State) : Host.Outcome State Fault Refusal :=
  match i with
  | .idleEsc => Sys2Proof.Machine.execIdleEsc s
  | .idleCr => Sys2Proof.Machine.execIdleCr s
  | .idleOther b => Sys2Proof.Machine.execIdleOther b s
  | .acrEsc => Sys2Proof.Machine.execAcrEsc s
  | .acrCr => Sys2Proof.Machine.execAcrCr s
  | .acrOther b => Sys2Proof.Machine.execAcrOther b s
  | .wlfEsc => Sys2Proof.Machine.execWlfEsc s
  | .wlfCr => Sys2Proof.Machine.execWlfCr s
  | .wlfLf => Sys2Proof.Machine.execWlfLf s
  | .wlfOther b => Sys2Proof.Machine.execWlfOther b s
  | .expaEsc => Sys2Proof.Machine.execExpaEsc s
  | .expaCr => Sys2Proof.Machine.execExpaCr s
  | .expaA => Sys2Proof.Machine.execExpaA s
  | .expaOther b => Sys2Proof.Machine.execExpaOther b s
  | .exptEsc => Sys2Proof.Machine.execExptEsc s
  | .exptCr => Sys2Proof.Machine.execExptCr s
  | .exptT => Sys2Proof.Machine.execExptT s
  | .exptOther b => Sys2Proof.Machine.execExptOther b s
  | .ccEsc => Sys2Proof.Machine.execCcEsc s
  | .ccCr => Sys2Proof.Machine.execCcCr s
  | .ccOther b => Sys2Proof.Machine.execCcOther b s
  | .cmEsc => Sys2Proof.Machine.execCmEsc s
  | .cmCr => Sys2Proof.Machine.execCmCr s
  | .cmSub => Sys2Proof.Machine.execCmSub s
  | .cmOther b => Sys2Proof.Machine.execCmOther b s
  | .cmgs => Sys2Proof.Machine.execCmgs s
  | .cpin => Sys2Proof.Machine.execCpin s
  | .z9 => Sys2Proof.Machine.execZ9 s
  | .otherCmd => Sys2Proof.Machine.execOtherCmd s
  | .hexDigit0 => Sys2Proof.Machine.execHexDigit0 s
  | .hexDigit1 => Sys2Proof.Machine.execHexDigit1 s
  | .hexDigit2 => Sys2Proof.Machine.execHexDigit2 s
  | .hexDigit3 => Sys2Proof.Machine.execHexDigit3 s
  | .hexDigit4 => Sys2Proof.Machine.execHexDigit4 s
  | .hexDigit5 => Sys2Proof.Machine.execHexDigit5 s
  | .hexDigit6 => Sys2Proof.Machine.execHexDigit6 s
  | .hexDigit7 => Sys2Proof.Machine.execHexDigit7 s
  | .hexDigit8 => Sys2Proof.Machine.execHexDigit8 s
  | .hexDigit9 => Sys2Proof.Machine.execHexDigit9 s
  | .hexLetterA => Sys2Proof.Machine.execHexLetterA s
  | .hexLetterB => Sys2Proof.Machine.execHexLetterB s
  | .hexLetterC => Sys2Proof.Machine.execHexLetterC s
  | .hexLetterD => Sys2Proof.Machine.execHexLetterD s
  | .hexLetterE => Sys2Proof.Machine.execHexLetterE s
  | .hexLetterF => Sys2Proof.Machine.execHexLetterF s
  | .hexOther b => Sys2Proof.Machine.execHexOther b s
  | .shift => Sys2Proof.Machine.execShift s
  | .rainbow0 => Sys2Proof.Machine.execRainbow0 s
  | .rainbow1 => Sys2Proof.Machine.execRainbow1 s
  | .rainbow2 => Sys2Proof.Machine.execRainbow2 s
  | .rainbow3 => Sys2Proof.Machine.execRainbow3 s
  | .rainbow4 => Sys2Proof.Machine.execRainbow4 s
  | .rainbow5 => Sys2Proof.Machine.execRainbow5 s
  | .rainbow6 => Sys2Proof.Machine.execRainbow6 s
  | .rainbow7 => Sys2Proof.Machine.execRainbow7 s
  | .rainbow8 => Sys2Proof.Machine.execRainbow8 s
  | .rainbow9 => Sys2Proof.Machine.execRainbow9 s
  | .rainbow10 => Sys2Proof.Machine.execRainbow10 s
  | .rainbow11 => Sys2Proof.Machine.execRainbow11 s
  | .rainbow12 => Sys2Proof.Machine.execRainbow12 s
  | .rainbow13 => Sys2Proof.Machine.execRainbow13 s
  | .rainbow14 => Sys2Proof.Machine.execRainbow14 s
  | .rainbow15 => Sys2Proof.Machine.execRainbow15 s
  | .rainbow16 => Sys2Proof.Machine.execRainbow16 s
  | .rainbow17 => Sys2Proof.Machine.execRainbow17 s
  | .rainbow18 => Sys2Proof.Machine.execRainbow18 s
  | .rainbow19 => Sys2Proof.Machine.execRainbow19 s
  | .rainbow20 => Sys2Proof.Machine.execRainbow20 s
  | .rainbow21 => Sys2Proof.Machine.execRainbow21 s
  | .rainbow22 => Sys2Proof.Machine.execRainbow22 s
  | .rainbow23 => Sys2Proof.Machine.execRainbow23 s
  | .rainbow24 => Sys2Proof.Machine.execRainbow24 s
  | .rainbow25 => Sys2Proof.Machine.execRainbow25 s
  | .gray0 => Sys2Proof.Machine.execGray0 s
  | .gray1 => Sys2Proof.Machine.execGray1 s
  | .gray2 => Sys2Proof.Machine.execGray2 s
  | .gray3 => Sys2Proof.Machine.execGray3 s
  | .gray4 => Sys2Proof.Machine.execGray4 s
  | .gray5 => Sys2Proof.Machine.execGray5 s
  | .gray6 => Sys2Proof.Machine.execGray6 s
  | .gray7 => Sys2Proof.Machine.execGray7 s
  | .gray8 => Sys2Proof.Machine.execGray8 s
  | .gray9 => Sys2Proof.Machine.execGray9 s
  | .allOff => Sys2Proof.Machine.execAllOff s
  | .skipSpace => Sys2Proof.Machine.execSkipSpace s
  | .skipOther ch => Sys2Proof.Machine.execSkipOther ch s
  | .setTarget index colour => Sys2Proof.Machine.execSetTarget index colour s
  | .shiftOp => Sys2Proof.Machine.execShiftOp s
  | .tick => Sys2Proof.Machine.execTick s
  | .reset => Sys2Proof.Machine.execReset s
  | .byteIn b => Sys2Proof.Machine.execByteIn b s
  | .timerTick => Sys2Proof.Machine.execTimerTick s
  | .sclk => Sys2Proof.Machine.execSclk s

end Sys2Proof.Machine
end

