-- ==== Sys2Proof/Machine/Fetch.lean ====
section
/-! DEFINITION. What stands for an instruction fetch: taking the next event the environment presents
(R9, R283), and placing a code where the next step comes to it. -/
namespace Sys2Proof.Machine

/-- An instant that presents one event. -/
def Event.alone : Event → Instant
  | .reset => ⟨true, false, false, none⟩
  | .byteIn b => ⟨false, false, false, some b⟩
  | .timerTick => ⟨false, false, true, none⟩
  | .sclk => ⟨false, true, false, none⟩

/-- What is left of an instant once its reset and serial clock are gone stays at the head. -/
def requeue (i : Instant) (rest : List Instant) : List Instant :=
  if i.tick || i.byteIn.isSome then i :: rest else rest

/-- The next event and the state without it. Events of one instant are taken one at a time: `RESET`
first, and the others of that instant are discarded, then `SCLK`, then the tick and the byte, in an
order that is a free value (R283). With nothing presented there is no event. -/
def takeEvent (s : State) : Option Event × State :=
  match s.inputs with
  | [] => (none, s)
  | i :: rest =>
    if i.reset then (some .reset, s.setInputs rest s.choice)
    else if i.sclk then (some .sclk, s.setInputs (requeue { i with sclk := false } rest) s.choice)
    else
      match i.tick, i.byteIn with
      | false, none => (none, s.setInputs rest s.choice)
      | true, none => (some .timerTick, s.setInputs rest s.choice)
      | false, some b => (some (.byteIn b), s.setInputs rest s.choice)
      | true, some b =>
        if Config.tickFirst s.choice then
          (some .timerTick, s.setInputs ({ i with tick := false } :: rest) (s.choice + 1))
        else (some (.byteIn b), s.setInputs ({ i with byteIn := none } :: rest) (s.choice + 1))

/-- The bytes written to the buffer from index `i` on. -/
def bufferLoad : Buffer → Nat → List Byte → Buffer
  | b, _, [] => b
  | b, i, v :: vs => bufferLoad (bufferWrite b i v) (i + 1) vs

/-- A message of one character in the buffer, as R98 lays it out with an empty address: the bytes before
the count, the count 1, and the character's packed byte. -/
def oneCharMessage (cfg : Config) (ch : Septet) : List Byte :=
  List.replicate cfg.envSkip 0x00 ++ [0x01, ch.setWidth 8]

/-- `s` with an event at the head of what the environment presents. -/
def State.present (s : State) (e : Event) : State := s.setInputs (Event.alone e :: s.inputs) s.choice

/-- `s` made ready so that the next step comes to the instruction with this code: the event that
brings it is presented, and the parser state, or the text or message in the buffer, that makes that
event select it is in place [DESIGN CHOICE, log entry 6]. -/
def placeCode (s : State) (c : Code) : State :=
  match c with
  | .event e => s.present e
  | .byte code b =>
    match stateOfCode code with
    | some ps => (s.setPs ps).present (.byteIn b)
    | none => s.present (.byteIn b)
  | .cmd text =>
    let t := text.takeWhile (· ≠ 0x00)
    ((s.setBuffer (bufferLoad s.buf 0 (t ++ [0x00])) (BitVec.ofNat 8 t.length)).setPs
      .collectingCommand).present (.byteIn byteCR)
  | .hex b => (s.setPs .collectingMessage).present (.byteIn b)
  | .strip ch =>
    let m := oneCharMessage s.cfg ch
    ((s.setBuffer (bufferLoad s.buf 0 m) (BitVec.ofNat 8 m.length)).setPs .collectingMessage).present
      (.byteIn byteSUB)
  | .fade _ => s

/-- `s` with the instruction of a table word placed where the next step comes to it. -/
def placeWord (s : State) (nbits w : Nat) : State := placeCode s (tableCode (w % 2 ^ nbits))

end Sys2Proof.Machine
end

