-- ==== Sys2Proof/Machine/Step.lean ====
section
/-! DEFINITION. One step of the machine: the next event is taken whole (R9, R75). -/
namespace Sys2Proof.Machine

/-- One step: the next event the environment presents, as its instruction. With no event presented
nothing happens: the block waits (R297). -/
def step (s : State) : Host.Outcome State Fault Refusal :=
  match takeEvent s with
  | (none, t) => .next t
  | (some e, t) => exec e.instr t

/-- `s` with the instruction of a table word placed where `step` takes its next instruction. -/
def State.withFetchWord (s : State) (nbits w : Nat) : State := placeWord s nbits w

end Sys2Proof.Machine
end

