-- ==== Sys2Proof/Safety.lean ====
section
/-! DEFINITION. What a safe run is, in the terms statements use: sequences of instructions, the closed
form of a fade, and the invariants of R39. -/
namespace Sys2Proof.Machine

/-- Instructions one after another, each on the state the one before it left. -/
def execAll : List Instr → State → Result
  | [], s => .next s
  | i :: rest, s => andThen (exec i s) (execAll rest)

/-- The byte events that deliver a list of bytes (R9). -/
def byteEvents (bytes : List Byte) : List Instr := bytes.map Instr.byteIn

/-! ### Fades (R232) -/

/-- A channel `k` ticks into a fade from `v0` to `v1` that lasts `ticks` ticks (R232). -/
def fadedChannel (ticks k : Nat) (v0 v1 : Byte) : Byte :=
  if fallsTo v0 v1 then v0 - BitVec.ofNat 8 (k * channelDist v0 v1 / ticks)
  else v0 + BitVec.ofNat 8 (k * channelDist v0 v1 / ticks)

/-- Its fraction `k` ticks into the fade (R232). -/
def fadedFrac (ticks k : Nat) (v0 v1 : Byte) : Byte :=
  BitVec.ofNat 8
    (k * (channelDist v0 v1 % ticks * (256 / ticks) + (if fallsTo v0 v1 then 1 else 0)))

/-- LED `l` is `k` ticks into a fade that began at colour `v0` (R232). -/
structure Led.InFade (cfg : Config) (v0 : Colour) (k : Nat) (l : Led) : Prop where
  count : l.cnt.toNat + k = cfg.fadeTicks
  step : l.step = Chan.map2 (fadeStep cfg.fadeShift) v0 l.tgt
  cur : l.cur = Chan.map2 (fadedChannel cfg.fadeTicks k) v0 l.tgt
  frac : l.frac = Chan.map2 (fadedFrac cfg.fadeTicks k) v0 l.tgt

/-- A live LED rests at its target or is in a fade toward it (R39 invariant 4, R233). -/
def Led.Inv (cfg : Config) (l : Led) : Prop :=
  (l.cnt = 0 ∧ l.cur = l.tgt) ∨ (l.cnt ≠ 0 ∧ ∃ v0 k, l.InFade cfg v0 k)

/-! ### The buffer -/

/-- The buffer holds `bytes` from index 0 on, and `len` counts them (R60). -/
def State.Holds (s : State) (bytes : List Byte) : Prop :=
  s.len.toNat = bytes.length ∧ ∀ i (h : i < bytes.length), s.readBuf i = .ok bytes[i]

/-- The buffer holds the command text `text` and its terminator (R65). -/
def State.HoldsText (s : State) (text : List Byte) : Prop :=
  s.Holds text ∧ s.readBuf text.length = .ok 0x00

/-! ### What a sender sends, and what it selects -/

/-- The command a stored text selects, said on the text itself (R94, R141, R144). -/
def commandOf (z : Z9Match) (text : List Byte) : Instr :=
  if textCmgs <+: text then .cmgs
  else if textCpin <+: text then .cpin
  else
    match z with
    | .exactText => if text = [0x5A, 0x39] ∨ [0x5A, 0x39, 0x00] <+: text then .z9 else .otherCmd
    | .startOfText => if [0x5A, 0x39] <+: text then .z9 else .otherCmd

/-- A command line on the wire: CR, LF, `A`, `T`, the text, CR (R93). -/
def commandLine (text : List Byte) : List Byte :=
  [byteCR, byteLF, byteA, byteT] ++ text ++ [byteCR]

/-- The upper-case hex character of a nibble (R96, R121). -/
def hexCharOf (n : Nat) : Byte := BitVec.ofNat 8 (if n < 10 then 0x30 + n else 0x37 + n)

/-- Bytes as hex characters, high nibble first (R67, R121). -/
def hexText (bytes : List Byte) : List Byte :=
  bytes.flatMap fun b => [hexCharOf (b.toNat / 16), hexCharOf (b.toNat % 16)]

/-- The envelope of R121 around a text: three bytes, the address length, `ceil2(alen) + 3` bytes, the
count, the packed septets. -/
def envelope (front : Byte × Byte × Byte) (alen : Byte) (middle : List Byte) (text : List Septet) : List Byte :=
  [front.1, front.2.1, front.2.2, alen] ++ middle ++ [BitVec.ofNat 8 text.length] ++ packSeptets text

/-- The characters the interpreter takes from the payload bytes (R98, R186, R187, R190). -/
def payloadChars (cfg : Config) (payload : List Byte) : List Septet :=
  let udl := ((payload.getD 3 0).toNat + 1) / 2 + cfg.envSkip
  if payload.length < 4 ∨ payload.length ≤ udl then []
  else septets (payload.drop (udl + 1)) (payload.getD udl 0).toNat

/-! ### The invariants (R39) -/

/-- What holds after reset and after every step. -/
structure State.Inv (s : State) : Prop where
  /-- The buffer is in canonical form. -/
  bufWf : s.buf.wf = true
  /-- No byte outside `buf[0..CAP-1]` is held (R35). -/
  bufInside : ∀ c ∈ s.buf, c.1 < s.cfg.cap
  /-- Invariant 1: `len <= CAP - 1`. -/
  lenBound : s.len.toNat ≤ s.cfg.cap - 1
  /-- Every byte below `len` has been written (R60). -/
  written : ∀ i, i < s.len.toNat → (bufferRead s.buf i).isSome = true
  /-- Invariant 2: a text being collected is terminated. -/
  terminated : s.ps = .collectingCommand → bufferRead s.buf s.len.toNat = some 0x00
  /-- Invariant 3: state 1 is entered by no rule (R115). -/
  reached : s.ps ≠ .awaitingCRAfterPrompt
  /-- There are `N` live LEDs (R21, R41). -/
  ledCount : s.leds.length = s.n
  /-- Invariant 4, for every live LED. -/
  ledsInv : ∀ l ∈ s.leds, l.Inv s.cfg
  /-- Invariant 5: during a frame the cursor is inside it, and fewer than `24 * N` symbols are out. -/
  frame : s.txBusy = true →
    s.txBits.toNat ≤ 8 ∧ s.txBits.toNat ≤ 8 * s.txPos.toNat ∧ s.txPos.toNat ≤ 3 * s.n ∧
      8 * s.txPos.toNat < 24 * s.n + s.txBits.toNat
  /-- The running index does not survive a run (R27, R193). -/
  idxAtRest : s.idx = 1

end Sys2Proof.Machine
end

