-- ==== Sys2Proof/Certificates/Slice0/Obligations.lean ====
section
/-! DEFINITION. The statements for the provers. -/
open Sys2Proof Sys2Proof.Machine

/-! ### The parser, state by state -/

/-- R132. `Idle`: CR starts a line, every other byte is ignored; only the echo, and only `ps`, change. -/
def Obligations.IdleArm : Prop :=
  (∀ s, exec .idleEsc s = .next { s with ps := .idle }) ∧
  (∀ s, exec .idleCr s = .next { s with replyOut := s.replyOut ++ [0x0D, 0x0A], ps := .waitingForLineFeed }) ∧
  (∀ s b, exec (.idleOther b) s = .next { s with ps := .idle }) ∧
  byteRow .idle 0x0D = .idleCr ∧ byteRow .idle 0x1B = .idleEsc ∧
  ∀ b, b ≠ 0x0D → b ≠ 0x1B → byteRow .idle b = .idleOther b

/-- R133. `AwaitingCRAfterPrompt` behaves as a copy of `Idle`, which the spec marks as its own choice (D8). -/
def Obligations.AwaitingCRArm : Prop :=
  (∀ s, exec .acrCr s = .next { s with replyOut := s.replyOut ++ [0x0D, 0x0A], ps := .waitingForLineFeed }) ∧
  (∀ s b, exec (.acrOther b) s = .next { s with ps := .idle }) ∧
  byteRow .awaitingCRAfterPrompt 0x0D = .acrCr ∧
  ∀ b, b ≠ 0x0D → b ≠ 0x1B → byteRow .awaitingCRAfterPrompt b = .acrOther b

/-- R134. `WaitingForLineFeed`: LF goes on, every other byte, a second CR among them, goes to `Idle`. -/
def Obligations.WaitingForLineFeedArm : Prop :=
  (∀ s, exec .wlfLf s = .next { s with ps := .expectingA }) ∧
  (∀ s, exec .wlfCr s = .next { s with replyOut := s.replyOut ++ [0x0D, 0x0A], ps := .idle }) ∧
  (∀ s b, exec (.wlfOther b) s = .next { s with ps := .idle }) ∧
  byteRow .waitingForLineFeed 0x0A = .wlfLf ∧ byteRow .waitingForLineFeed 0x0D = .wlfCr ∧
  ∀ b, b ≠ 0x0A → b ≠ 0x0D → b ≠ 0x1B → byteRow .waitingForLineFeed b = .wlfOther b

/-- R135. `ExpectingA`: `A` goes on, every other byte goes to `Idle`. -/
def Obligations.ExpectingAArm : Prop :=
  (∀ s, exec .expaA s = .next { s with ps := .expectingT }) ∧
  (∀ s, exec .expaCr s = .next { s with replyOut := s.replyOut ++ [0x0D, 0x0A], ps := .idle }) ∧
  (∀ s b, exec (.expaOther b) s = .next { s with ps := .idle }) ∧
  byteRow .expectingA 0x41 = .expaA ∧ byteRow .expectingA 0x0D = .expaCr ∧
  ∀ b, b ≠ 0x41 → b ≠ 0x0D → b ≠ 0x1B → byteRow .expectingA b = .expaOther b

/-- R136. `ExpectingT`: `T` clears the buffer, writing `buf[0]` alone, and starts the text; every other
byte goes to `Idle` and clears nothing. -/
def Obligations.ExpectingTArm : Prop :=
  (∀ s, ∃ t, exec .exptT s = .next t ∧
    t = { s with buf := t.buf, len := 0, ps := .collectingCommand } ∧
    (s.buf.wf = true → t.readBuf 0 = .ok 0x00) ∧ ∀ a, a ≠ 0 → t.readBuf a = s.readBuf a) ∧
  (∀ s, exec .exptCr s = .next { s with replyOut := s.replyOut ++ [0x0D, 0x0A], ps := .idle }) ∧
  (∀ s b, exec (.exptOther b) s = .next { s with ps := .idle }) ∧
  byteRow .expectingT 0x54 = .exptT ∧ byteRow .expectingT 0x0D = .exptCr ∧
  ∀ b, b ≠ 0x54 → b ≠ 0x0D → b ≠ 0x1B → byteRow .expectingT b = .exptOther b

/-- R138, R63. A text byte is stored at `buf[len]` with a terminator after it while `len < CAP - 1`, and is
dropped without a trace when there is no room. -/
def Obligations.TextByteIsAppended : Prop :=
  (∀ b, b ≠ 0x0D → b ≠ 0x1B → byteRow .collectingCommand b = .ccOther b) ∧
  ∀ s b, ∃ t, exec (.ccOther b) s = .next t ∧
    (s.len.toNat < s.cfg.cap - 1 →
      t = { s with buf := t.buf, len := t.len, ps := .collectingCommand } ∧
      t.len.toNat = s.len.toNat + 1 ∧
      (s.buf.wf = true → t.readBuf s.len.toNat = .ok b ∧ t.readBuf (s.len.toNat + 1) = .ok 0x00) ∧
      ∀ a, a ≠ s.len.toNat → a ≠ s.len.toNat + 1 → t.readBuf a = s.readBuf a) ∧
    (s.cfg.cap - 1 ≤ s.len.toNat → t = { s with ps := .collectingCommand })

/-- R147. Escape, in every state, changes `ps` and nothing else: no reply, no buffer, no flag. -/
def Obligations.EscapeChangesStateOnly : Prop :=
  (∀ i ∈ [Instr.idleEsc, .acrEsc, .wlfEsc, .expaEsc, .exptEsc, .ccEsc, .cmEsc],
    ∀ s, exec i s = .next { s with ps := .idle }) ∧
  ∀ ps, byteRow ps 0x1B ∈ [Instr.idleEsc, .acrEsc, .wlfEsc, .expaEsc, .exptEsc, .ccEsc, .cmEsc]

/-- R94, R137, R141, R144. The CR that ends a text echoes and then runs the command the text selects: `+CMGS=`
and `+CPIN?` as prefixes, `Z9` as `Z9_MATCH` says, anything else the default. It always completes. How the
texts are compared, and that `Z9` is by default the whole text, are the spec's own choices (D14, D15), which
the model follows (log entry 16). -/
def Obligations.ClosingCrRunsTheCommand : Prop :=
  byteRow .collectingCommand 0x0D = .ccCr ∧
  ∀ s text, s.HoldsText text →
    ∃ t, exec .ccCr s = .next t ∧
      exec (commandOf s.cfg.z9Match text) { s with replyOut := s.replyOut ++ [0x0D, 0x0A] } = .next t

/-- R142. `+CMGS=` prompts, clears the buffer and the nibble state, and enters the message; no `OK`. -/
def Obligations.CmgsEntersTheMessage : Prop :=
  ∀ s, ∃ t, exec .cmgs s = .next t ∧
    t = { s with replyOut := s.replyOut ++ [0x3E, 0x20], buf := t.buf, len := 0, haveHi := false, hiNib := 0,
                 ps := .collectingMessage } ∧
    (s.buf.wf = true → t.readBuf 0 = .ok 0x00) ∧ ∀ a, a ≠ 0 → t.readBuf a = s.readBuf a

/-- R143, R145, R146. `+CPIN?` answers its status, any other text answers nothing of its own; both then
answer `OK` and wait for a line feed, and no byte of the buffer changes. -/
def Obligations.QueriesAndOtherTextsAreAnswered : Prop :=
  (∀ s, exec .cpin s = .next { s with
    replyOut := s.replyOut ++ [0x2B, 0x43, 0x50, 0x49, 0x4E, 0x3A, 0x20, 0x52, 0x45, 0x41, 0x44, 0x59, 0x0D, 0x0A]
      ++ [0x4F, 0x4B, 0x0D, 0x0A],
    ps := .waitingForLineFeed }) ∧
  ∀ s, exec .otherCmd s = .next { s with
    replyOut := s.replyOut ++ [0x4F, 0x4B, 0x0D, 0x0A], ps := .waitingForLineFeed }

/-- R144, R146. `Z9` arms the watchdog, and then answers and waits as any other text. -/
def Obligations.Z9ArmsTheWatchdog : Prop :=
  ∀ s, exec .z9 s = .next { s with
    wdtArmed := true, replyOut := s.replyOut ++ [0x4F, 0x4B, 0x0D, 0x0A], ps := .waitingForLineFeed }

/-! ### The unpacker -/

/-- R172. The first character of a pair, whatever its row, stores its nibble and sets the flag; nothing is
appended. -/
def Obligations.FirstNibbleIsStored : Prop :=
  ∀ s, s.haveHi = false →
    (∀ p ∈ [(Instr.hexDigit0, (0 : BitVec 4)), (.hexDigit1, 1), (.hexDigit2, 2), (.hexDigit3, 3), (.hexDigit4, 4),
        (.hexDigit5, 5), (.hexDigit6, 6), (.hexDigit7, 7), (.hexDigit8, 8), (.hexDigit9, 9), (.hexLetterA, 10),
        (.hexLetterB, 11), (.hexLetterC, 12), (.hexLetterD, 13), (.hexLetterE, 14), (.hexLetterF, 15)],
      exec p.1 s = .next { s with haveHi := true, hiNib := p.2 }) ∧
    ∀ b, (Instr.hexOther b).wf = true → exec (.hexOther b) s = .next { s with haveHi := true, hiNib := 0 }

/-- R173, R174. The second character of a pair completes the byte `16 * hi_nib + nib`, which is stored at
`buf[len]` without a terminator while there is room; the flag is cleared either way. -/
def Obligations.SecondNibbleCompletesAByte : Prop :=
  ∀ s, s.haveHi = true →
    ∀ i n, (i, n) ∈ [(Instr.hexDigit0, 0), (.hexDigit1, 1), (.hexDigit2, 2), (.hexDigit3, 3), (.hexDigit4, 4),
        (.hexDigit5, 5), (.hexDigit6, 6), (.hexDigit7, 7), (.hexDigit8, 8), (.hexDigit9, 9), (.hexLetterA, 10),
        (.hexLetterB, 11), (.hexLetterC, 12), (.hexLetterD, 13), (.hexLetterE, 14), (.hexLetterF, 15)] ∨
        (∃ b, i = .hexOther b ∧ i.wf = true ∧ n = 0) →
      ∃ t, exec i s = .next t ∧
        (s.len.toNat < s.cfg.cap - 1 →
          t = { s with buf := t.buf, len := t.len, haveHi := false } ∧ t.len.toNat = s.len.toNat + 1 ∧
          (s.buf.wf = true → t.readBuf s.len.toNat = .ok (BitVec.ofNat 8 (16 * s.hiNib.toNat + n))) ∧
          ∀ a, a ≠ s.len.toNat → t.readBuf a = s.readBuf a) ∧
        (s.cfg.cap - 1 ≤ s.len.toNat → t = { s with haveHi := false })

/-- R175, R178, R179. The row a character selects stands for the nibble of its class, and every character,
hex or not, toggles the flag. -/
def Obligations.CharactersSelectTheirNibble : Prop :=
  ∀ (b : Byte) (s : State), ∃ t, exec (hexRow b) s = .next t ∧ t.haveHi = !s.haveHi ∧
    (s.haveHi = false → t.hiNib.toNat =
      if 0x30 ≤ b.toNat ∧ b.toNat ≤ 0x39 then b.toNat - 0x30
      else if 0x41 ≤ b.toNat ∧ b.toNat ≤ 0x46 then b.toNat - 0x37 else 0)

/-- R139, the arm for every byte but Ctrl-Z: the byte is a message character, a CR echoed first. -/
def Obligations.MessageBytesFeedTheUnpacker : Prop :=
  (∀ s b, ∃ t, exec (hexRow b) s = .next t ∧ exec (.cmOther b) s = .next { t with ps := .collectingMessage }) ∧
  ∀ s, ∃ t, exec (hexRow 0x0D) { s with replyOut := s.replyOut ++ [0x0D, 0x0A] } = .next t ∧
    exec .cmCr s = .next { t with ps := .collectingMessage }

/-- R181. The unpacker as a function: the bytes left in the buffer by the characters of a message. -/
def Obligations.UnpackerAsAFunction : Prop :=
  ∀ s chars, s.ps = .collectingMessage → s.haveHi = false → s.len = 0 → s.buf.wf = true →
    (∀ c ∈ chars, c ≠ 0x1A ∧ c ≠ 0x1B) →
    ∃ t, execAll (byteEvents chars) s = .next t ∧ t.ps = .collectingMessage ∧
      t.len.toNat = min (chars.length / 2) (s.cfg.cap - 1) ∧
      ∀ p, p < t.len.toNat →
        t.readBuf p = .ok (BitVec.ofNat 8 (16 * (nib (chars.getD (2 * p) 0)).toNat + (nib (chars.getD (2 * p + 1) 0)).toNat))

/-! ### The interpreter -/

/-- R139, R185, R186, R187. Ctrl-Z runs the characters of the payload in the buffer, in order, each as its
strip command from index 1, answers `OK` and returns to `Idle`. It always completes. That the index is back at
1 after the event is the model's choice (log entry 8, DESIGN CHOICE): R193 says only that it does not survive
the run. -/
def Obligations.CtrlZRunsTheMessage : Prop :=
  ∀ s payload, s.Holds payload →
    ∃ t, execAll ((payloadChars s.cfg payload).map stripRow) { s with idx := 1 } = .next t ∧
      exec .cmSub s = .next { t with
        idx := 1, replyOut := t.replyOut ++ [0x4F, 0x4B, 0x0D, 0x0A], ps := .idle }

/-- R200, R202, R23. Every strip command runs, and changes the scratch slot, the targets and the running
index only: no byte of the buffer, no parser state or flag, no live colour, no snapshot. -/
def Obligations.StripCommandsTouchTargetsOnly : Prop :=
  ∀ i s, i.format = .strip → ∃ t, exec i s = .next t ∧
    t = { s with scratch := t.scratch, leds := t.leds, idx := t.idx } ∧
    t.leds.map Led.cur = s.leds.map Led.cur ∧ t.leds.map Led.snap = s.leds.map Led.snap

/-- R194. `SHIFT` is `Shift()` and the index back at 1; the scratch slot is not written. -/
def Obligations.ShiftCommand : Prop :=
  ∀ s, ∃ t, exec .shiftOp s = .next t ∧ exec .shift s = .next { t with idx := 1 } ∧ t.scratch = s.scratch

/-- R196. `RAINBOW k`, the character `0x61 + k`, stages entry `k` of the build's table, applies it to the LED at
the running index, and advances it. -/
def Obligations.RainbowCommands : Prop :=
  (∀ p ∈ [(Instr.rainbow0, (0 : Fin 26)), (.rainbow1, 1), (.rainbow2, 2), (.rainbow3, 3), (.rainbow4, 4), (.rainbow5, 5),
      (.rainbow6, 6), (.rainbow7, 7), (.rainbow8, 8), (.rainbow9, 9), (.rainbow10, 10), (.rainbow11, 11),
      (.rainbow12, 12), (.rainbow13, 13), (.rainbow14, 14), (.rainbow15, 15), (.rainbow16, 16), (.rainbow17, 17),
      (.rainbow18, 18), (.rainbow19, 19), (.rainbow20, 20), (.rainbow21, 21), (.rainbow22, 22), (.rainbow23, 23),
      (.rainbow24, 24), (.rainbow25, 25)],
    stripRow (BitVec.ofNat 7 (0x61 + p.2.val)) = p.1 ∧
    ∀ s, ∃ t, exec (.setTarget s.idx (rainbowColour s.cfg p.2)) { s with scratch := rainbowColour s.cfg p.2 } = .next t ∧
      exec p.1 s = .next { t with idx := s.idx + 1 }) ∧
  ∀ (cfg : Config) table k, cfg.rainbow = some table → rainbowColour cfg k = table[k.val]

/-- R197. `GRAY d`, the character `0x30 + d`, does the same with `GRAY[d]`, and `GRAY[0]` is off on all three
channels in every build; the entries above it are the build's. -/
def Obligations.GrayCommands : Prop :=
  (∀ p ∈ [(Instr.gray0, (0 : Fin 10)), (.gray1, 1), (.gray2, 2), (.gray3, 3), (.gray4, 4), (.gray5, 5), (.gray6, 6),
      (.gray7, 7), (.gray8, 8), (.gray9, 9)],
    stripRow (BitVec.ofNat 7 (0x30 + p.2.val)) = p.1 ∧
    ∀ s, ∃ t, exec (.setTarget s.idx (grayColour s.cfg p.2)) { s with scratch := grayColour s.cfg p.2 } = .next t ∧
      exec p.1 s = .next { t with idx := s.idx + 1 }) ∧
  (∀ cfg, grayColour cfg 0 = ⟨0, 0, 0⟩) ∧
  ∀ (cfg : Config) table (k : Fin 9), cfg.grayTail = some table → grayColour cfg k.succ = table[k.val]

/-- R198. `ALLOFF` stages off and applies it at index 0, to every live LED; the index advances. -/
def Obligations.AllOffCommand : Prop :=
  stripRow 0x58 = .allOff ∧
  ∀ s, ∃ t, exec (.setTarget 0 ⟨0, 0, 0⟩) { s with scratch := ⟨0, 0, 0⟩ } = .next t ∧
    exec .allOff s = .next { t with idx := s.idx + 1 }

/-- R195, R199. Space and every character with no row of its own advance the running index and do nothing
else. -/
def Obligations.SkipCommands : Prop :=
  (∀ s, exec .skipSpace s = .next { s with idx := s.idx + 1 }) ∧
  (∀ s ch, exec (.skipOther ch) s = .next { s with idx := s.idx + 1 }) ∧
  stripRow 0x20 = .skipSpace ∧
  ∀ ch : Septet, ch ≠ 0x3E → ¬ (0x61 ≤ ch.toNat ∧ ch.toNat ≤ 0x7A) → ¬ (0x30 ≤ ch.toNat ∧ ch.toNat ≤ 0x39) →
    ch ≠ 0x58 → ch ≠ 0x20 → stripRow ch = .skipOther ch

/-- R189. The sliding window of the reference algorithm produces exactly the characters of R99 and R100. -/
def Obligations.SlidingWindowGivesTheSeptets : Prop :=
  ∀ (d : List Byte) (count : Nat), slidingSeptets d count = septets d count

/-- R191. Packing a text as R121 says and decoding it gives the text back. -/
def Obligations.SeptetRoundTrip : Prop :=
  ∀ text : List Septet, septets (packSeptets text) text.length = text

/-! ### The Fade Engine -/

/-- R220 to R225. `SetTarget`: index 0 is every live LED, an index `1..N` that LED, any other none. An LED
reached gets the target, a full countdown, steps from its own live value with the direction in bit 0,
and cleared fractions; its live colour, and everything else in the block, stay. The clauses on the bits of the
step and on the fraction hold for the packed form, which the model chose to keep (log entry 17, DESIGN
CHOICE; R238 lets both differ). -/
def Obligations.SetTargetRetargets : Prop :=
  ∀ s index colour, s.leds.length = s.n →
    ∃ t, exec (.setTarget index colour) s = .next t ∧ t = { s with leds := t.leds } ∧
      t.leds.length = s.leds.length ∧
      ∀ i l, s.led i = some l → ∃ m, t.led i = some m ∧
        (index = 0 ∨ index.toNat = i →
          m.tgt = colour ∧ m.cnt.toNat = 2 ^ s.cfg.fadeShift.val ∧ m.cur = l.cur ∧ m.snap = l.snap ∧
          ∀ c : Fin 3, (m.frac.get c) = 0 ∧ (m.step.get c).toNat =
            ((colour.get c).toNat - (l.cur.get c).toNat + ((l.cur.get c).toNat - (colour.get c).toNat))
                * 2 ^ (8 - s.cfg.fadeShift.val)
              + (if (colour.get c).toNat < (l.cur.get c).toNat then 1 else 0)) ∧
        (index ≠ 0 → index.toNat ≠ i → m = l)

/-- R226. `Shift()`: every LED from 2 up is given, as by `SetTarget`, the target its lower neighbour had
before the shift; LED 1 and everything else in the block stay. -/
def Obligations.ShiftCascadesTargets : Prop :=
  ∀ s, s.leds.length = s.n →
    ∃ t, exec .shiftOp s = .next t ∧ t = { s with leds := t.leds } ∧ t.leds.length = s.leds.length ∧
      t.led 1 = s.led 1 ∧
      ∀ i p, 2 ≤ i → i ≤ s.n → s.led (i - 1) = some p →
        ∃ u, exec (.setTarget (BitVec.ofNat 8 i) p.tgt) s = .next u ∧ t.led i = u.led i

/-- R228, R229, R230. `Tick()`: an LED at rest is written its exact target; an LED in a fade counts down
and takes one step on each channel, modulo 256; nothing but the LEDs changes. That the direction is bit 0 of the
step, what the step adds and what the fraction becomes hold for the packed form, which the model chose to
keep (log entry 17, DESIGN CHOICE; R238 lets both differ). -/
def Obligations.TickSteps : Prop :=
  ∀ s, ∃ t, exec .tick s = .next t ∧ t = { s with leds := t.leds } ∧ t.leds.length = s.leds.length ∧
    ∀ i l, s.led i = some l → ∃ m, t.led i = some m ∧
      (l.cnt = 0 → m = { l with cur := l.tgt }) ∧
      (l.cnt ≠ 0 →
        m = { l with cnt := m.cnt, cur := m.cur, frac := m.frac } ∧ m.cnt.toNat + 1 = l.cnt.toNat ∧
        ∀ c : Fin 3,
          (m.frac.get c).toNat = ((l.frac.get c).toNat + (l.step.get c).toNat % 256) % 256 ∧
          ((m.cur.get c).toNat : Int) =
            ((l.cur.get c).toNat
              + (if (l.step.get c).toNat % 2 = 0 then 1 else -1) *
                (((l.step.get c).toNat / 256 + ((l.frac.get c).toNat + (l.step.get c).toNat % 256) / 256 : Nat) : Int)
              : Int) % 256)

/-- R232, R233. The closed form of a fade: `k` ticks after a `SetTarget`, a channel has gone from `V0` toward
`V1` by `(min k F * dist) div F` units, the countdown is `F - k`, and from `k = F` on the channel is
exactly at its target. The last clause, on the fraction, holds for the packed form, which the model chose to
keep (log entry 17, DESIGN CHOICE; R238 lets the fraction differ). -/
def Obligations.FadeClosedForm : Prop :=
  ∀ s index colour k i l, s.leds.length = s.n → s.led i = some l → index = 0 ∨ index.toNat = i →
    ∃ t m, execAll (.setTarget index colour :: List.replicate k .tick) s = .next t ∧ t.led i = some m ∧
      m.tgt = colour ∧ m.cnt.toNat = s.cfg.fadeTicks - k ∧
      (s.cfg.fadeTicks ≤ k → m.cur = colour) ∧
      ∀ c : Fin 3, ∀ v0 v1 d dir : Nat, v0 = (l.cur.get c).toNat → v1 = (colour.get c).toNat →
        d = v1 - v0 + (v0 - v1) → dir = (if v1 < v0 then 1 else 0) →
        ((m.cur.get c).toNat : Int) = v0 + (if v1 < v0 then -1 else 1) * ((min k s.cfg.fadeTicks * d / s.cfg.fadeTicks : Nat) : Int) ∧
        (m.frac.get c).toNat =
          min k s.cfg.fadeTicks * (d % s.cfg.fadeTicks * (256 / s.cfg.fadeTicks) + dir) % 256

/-- R234. In a state that meets the invariants a tick never takes a channel away from its target nor past
it. The invariants speak of the packed step and the fraction as the model keeps them (log entry 17). -/
def Obligations.TickMovesTowardTheTarget : Prop :=
  ∀ s, s.Inv → ∃ t, exec .tick s = .next t ∧
    ∀ i l, s.led i = some l → ∃ m, t.led i = some m ∧ ∀ c : Fin 3,
      ((l.cur.get c).toNat ≤ (l.tgt.get c).toNat →
        (l.cur.get c).toNat ≤ (m.cur.get c).toNat ∧ (m.cur.get c).toNat ≤ (l.tgt.get c).toNat) ∧
      ((l.tgt.get c).toNat ≤ (l.cur.get c).toNat →
        (l.tgt.get c).toNat ≤ (m.cur.get c).toNat ∧ (m.cur.get c).toNat ≤ (l.cur.get c).toNat)

/-! ### The transmitter and the events -/

/-- R252, R260, R228. `TIMER_TICK`: with no frame in progress the live colours are copied and the cursor
reset, `tx_sr` untouched, and then `Tick` runs; during a frame only `Tick` runs. -/
def Obligations.TimerTickTriggersThenTicks : Prop :=
  (∀ s, s.txBusy = false → ∃ t, exec .timerTick s = .next t ∧
    exec .tick { s with leds := s.leds.map (fun l => { l with snap := l.cur }), txBusy := true, txPos := 0, txBits := 0 }
      = .next t) ∧
  ∀ s, s.txBusy = true → ∃ t, exec .timerTick s = .next t ∧ exec .tick s = .next t

/-- R261. `SCLK` with no frame in progress changes nothing and puts out nothing. -/
def Obligations.IdleSclkDoesNothing : Prop := ∀ s, s.txBusy = false → exec .sclk s = .next s

/-- R254, R255, R256, R257. `SCLK` during a frame: the working byte is refilled from the snapshot when all
its bits are out, its top bit goes out as one symbol, and the last bit of the last byte ends the frame. -/
def Obligations.BusySclkEmitsOneSymbol : Prop :=
  (∀ s, s.txBusy = true → s.txBits ≠ 0 →
    exec .sclk s = .next { s with
      stripOut := s.stripOut ++ [if s.txSr.toNat / 128 = 1 then .long else .short]
      txSr := BitVec.ofNat 8 (2 * s.txSr.toNat)
      txBits := s.txBits - 1
      txBusy := !(s.txBits = 1 && s.txPos.toNat = 3 * s.n) }) ∧
  ∀ s l v, s.txBusy = true → s.txBits = 0 → s.led (1 + s.txPos.toNat / 3) = some l →
    v = l.snap.get (Fin.ofNat 3 (s.txPos.toNat % 3)) →
    exec .sclk s = .next { s with
      stripOut := s.stripOut ++ [if v.toNat / 128 = 1 then .long else .short]
      txSr := BitVec.ofNat 8 (2 * v.toNat)
      txPos := s.txPos + 1
      txBits := 7 }

/-- R259, R105. A frame: from a trigger with no frame in progress, `24 * N` `SCLK` steps put out exactly the
bits of the live colours of that moment, LED 1 first, A B C, most significant bit first, and no step
before the last ends the frame. -/
def Obligations.FrameIsTheSnapshot : Prop :=
  ∀ s, s.txBusy = false → s.leds.length = s.n →
    (∀ j, j < 24 * s.n → ∃ u, execAll (.timerTick :: List.replicate j .sclk) s = .next u ∧ u.txBusy = true) ∧
    ∃ t, execAll (.timerTick :: List.replicate (24 * s.n) .sclk) s = .next t ∧ t.txBusy = false ∧
      t.stripOut.length = s.stripOut.length + 24 * s.n ∧ s.stripOut <+: t.stripOut ∧
      ∀ q l, q < 24 * s.n → s.led (1 + q / 24) = some l →
        t.stripOut[s.stripOut.length + q]? = some
          (if (l.cur.get (Fin.ofNat 3 (q / 8 % 3))).getLsbD (7 - q % 8) then .long else .short)

/-- R131, R140. A byte runs the row that the parser state and the byte select, and the table selects by the
state's own rows. -/
def Obligations.ByteRunsItsRow : Prop :=
  ∀ b s, exec (.byteIn b) s = exec (byteRow s.ps b) s ∧
    ∃ i, decode s.cfg.z9Match (.byte s.ps.code b) = .ok i ∧ i = byteRow s.ps b ∧ i.wf = true

/-- R130, R150. In a state that meets the invariants a byte always completes, replies with at most `REPLY_MAX`
bytes, and touches no transmitter register, no snapshot, no strip output and no live colour. -/
def Obligations.ByteAlwaysCompletes : Prop :=
  ∀ b s, s.Inv → ∃ t out, exec (.byteIn b) s = .next t ∧ t.replyOut = s.replyOut ++ out ∧
    out.length ≤ Config.replyMax ∧
    t.txBusy = s.txBusy ∧ t.txPos = s.txPos ∧ t.txBits = s.txBits ∧ t.txSr = s.txSr ∧ t.stripOut = s.stripOut ∧
    t.leds.map Led.snap = s.leds.map Led.snap ∧ t.leds.map Led.cur = s.leds.map Led.cur

/-- R310, R42. `RESET` from any state: every piece of the block's state takes the reset value this spec
chose for it, whatever was in progress; nothing is put out. That what the environment still presents is
kept is the model's choice (log entry 6). -/
def Obligations.ResetFromAnyState : Prop :=
  ∀ s, ∃ t, exec .reset s = .next t ∧ t.ps = .idle ∧ t.len = 0 ∧ t.readBuf 0 = .ok 0x00 ∧ t.haveHi = false ∧
    t.hiNib = 0 ∧ t.wdtArmed = false ∧ t.scratch = ⟨0, 0, 0⟩ ∧ t.txBusy = false ∧ t.txPos = 0 ∧ t.txBits = 0 ∧
    t.txSr = 0 ∧ t.cfg = s.cfg ∧ t.leds.length = s.n ∧
    (∀ l ∈ t.leds, l = ⟨⟨0, 0, 0⟩, ⟨0, 0, 0⟩, 0, ⟨0, 0, 0⟩, ⟨0, 0, 0⟩, ⟨0, 0, 0⟩⟩) ∧
    t.replyOut = s.replyOut ∧ t.stripOut = s.stripOut ∧ t.inputs = s.inputs

/-! ### The step -/

/-- R9, R75. A step runs the event it takes as its instruction, and a byte as the well-formed instruction
its code decodes to. That a step with no event presented changes nothing is the model's choice (log
entry 6). -/
def Obligations.StepRunsTheEventTaken : Prop :=
  (∀ s e t, takeEvent s = (some e, t) → step s = exec e.instr t) ∧
  (∀ s b t, takeEvent s = (some (.byteIn b), t) →
    ∃ i, decode t.cfg.z9Match (.byte t.ps.code b) = .ok i ∧ i.wf = true ∧ step s = exec i t) ∧
  ∀ s t, takeEvent s = (none, t) → step s = .next t

/-- R283. Events of one instant: `RESET` first and the others discarded, then `SCLK`, then the tick and the
byte in either order, each leaving the other presented. The counter `choice` is the model's own (log
entry 3). -/
def Obligations.EventsOfOneInstant : Prop :=
  ∀ s i rest, s.inputs = i :: rest →
    (i.reset = true → takeEvent s = (some .reset, { s with inputs := rest })) ∧
    (i.reset = false → i.sclk = true → takeEvent s = (some .sclk, { s with
      inputs := if i.tick = true ∨ i.byteIn ≠ none then { i with sclk := false } :: rest else rest })) ∧
    (i.reset = false → i.sclk = false → i.tick = true → i.byteIn = none →
      takeEvent s = (some .timerTick, { s with inputs := rest })) ∧
    (∀ b, i.reset = false → i.sclk = false → i.tick = false → i.byteIn = some b →
      takeEvent s = (some (.byteIn b), { s with inputs := rest })) ∧
    (∀ b, i.reset = false → i.sclk = false → i.tick = true → i.byteIn = some b →
      takeEvent s = (some .timerTick, { s with inputs := { i with tick := false } :: rest, choice := s.choice + 1 }) ∨
      takeEvent s = (some (.byteIn b), { s with inputs := { i with byteIn := none } :: rest, choice := s.choice + 1 }))

/-! ### Encodings -/

/-- Words written out from the tables of R91, R94, R96 and R101 decode to the instructions they stand for. -/
def Obligations.SampleCodesDecode : Prop :=
  decode .exactText (.byte 0 0x0D) = .ok .idleCr ∧
  decode .exactText (.byte 6 0x1A) = .ok .cmSub ∧
  decode .exactText (.byte 5 0x1A) = .ok (.ccOther 0x1A) ∧
  decode .exactText (.cmd [0x2B, 0x43, 0x4D, 0x47, 0x53, 0x3D]) = .ok .cmgs ∧
  decode .exactText (.cmd [0x5A, 0x39, 0x30, 0x00]) = .ok .otherCmd ∧
  decode .startOfText (.cmd [0x5A, 0x39, 0x30, 0x00]) = .ok .z9 ∧
  decode .exactText (.hex 0x43) = .ok .hexLetterC ∧
  decode .exactText (.hex 0x63) = .ok (.hexOther 0x63) ∧
  decode .exactText (.strip 0x3E) = .ok .shift ∧
  decode .exactText (.strip 0x78) = .ok .rainbow23 ∧
  decode .exactText (.strip 0x58) = .ok .allOff ∧
  decode .exactText (.byte 7 0x0D) = .error .noSuchState

/-- R107. Decoding the code of any well-formed instruction gives it back, with every operand. -/
def Obligations.DecodeOfEncode : Prop :=
  ∀ z i, i.wf = true → decode z (encode i) = .ok i

/-- R107. Whatever a code decodes to is well formed, and the code of that instruction decodes to it again:
no default row takes a code that has a row of its own. -/
def Obligations.DecodedInstructionsAreWellFormed : Prop :=
  ∀ z c i, decode z c = .ok i → i.wf = true ∧ decode z (encode i) = .ok i

/-- R108, R110, R111, R117. No byte is illegal in any of the seven states, no character in a message but
the two that never reach the unpacker, and no strip command; the eighth state code is no state. -/
def Obligations.NoCodeIsIllegal : Prop :=
  (∀ z ps b, ∃ i, decode z (.byte (ParserState.code ps) b) = .ok i ∧ i.format = .byte) ∧
  (∀ z c, c ≠ 0x1A → c ≠ 0x1B → ∃ i, decode z (.hex c) = .ok i ∧ i.format = .hex) ∧
  (∀ z ch, ∃ i, decode z (.strip ch) = .ok i ∧ i.format = .strip) ∧
  ∀ z b, decode z (.byte 7 b) = .error .noSuchState

/-! ### Invariants -/

/-- R39, R42. The state after reset meets every invariant, whatever the configuration. The buffer's canonical
form and the resting index are the model's own invariants (log entries 8 and 10), and so are the packed step and
the fraction of a fade in progress (log entry 17). -/
def Obligations.ResetMeetsTheInvariants : Prop :=
  (∀ cfg, (State.resetWith cfg).Inv) ∧ State.reset.Inv

/-- R39, R232. Every step keeps every invariant: the length bound, the terminator, the reachable states, the
endpoint of every fade and its live colours along the closed form, the place of the frame; and what is the
model's own: the canonical form of the buffer and the resting index (log entries 8 and 10), and, of a fade in
progress, the packed step and its fraction (R220, R232, kept by choice: log entry 17; R238 lets both differ). -/
def Obligations.StepKeepsTheInvariants : Prop :=
  ∀ s t, s.Inv → step s = .next t → t.Inv

/-- R275. No event faults, and none is refused: from a state that meets the invariants every step answers a
next state. -/
def Obligations.StepNeverStops : Prop :=
  ∀ s, s.Inv → ∃ t, step s = .next t

/-- Every instruction, run in any state, keeps the buffer in its canonical form. The form is the model's
choice of how to hold the bytes of R35 (log entry 10). -/
def Obligations.BufferFormIsKept : Prop :=
  ∀ i s t, s.buf.wf = true → exec i s = .next t → t.buf.wf = true

/-- R39 invariant 6, R144, R288. Nothing but `RESET` disarms the watchdog, and nothing but the command `Z9` arms
it: the row itself, or a CR in `CollectingCommand` whose text selects that row. -/
def Obligations.WatchdogIsSticky : Prop :=
  (∀ i s t, i ≠ .reset → s.wdtArmed = true → exec i s = .next t → t.wdtArmed = true) ∧
  ∀ i s t, s.wdtArmed = false → exec i s = .next t → t.wdtArmed = true →
    i = .z9 ∨
      cmdRow s.cfg.z9Match s.commandText = some .z9 ∧
        (i = .ccCr ∨ i = .byteIn 0x0D ∧ s.ps = .collectingCommand)

/-- R23, R40. Live colours move only in a tick (or are cleared by `RESET`): no other instruction writes
`Cur[1..N]`. -/
def Obligations.OnlyTicksMoveLiveColours : Prop :=
  ∀ i s t, i ≠ .tick → i ≠ .timerTick → i ≠ .reset → exec i s = .next t →
    t.leds.map Led.cur = s.leds.map Led.cur

/-- R256, R40. While a frame is in progress nothing but `SCLK` and `RESET` changes the snapshot or a
transmitter register, or puts out a symbol. -/
def Obligations.FrameIsNotCancelled : Prop :=
  ∀ i s t, i ≠ .sclk → i ≠ .reset → s.txBusy = true → exec i s = .next t →
    t.txBusy = true ∧ t.txPos = s.txPos ∧ t.txBits = s.txBits ∧ t.txSr = s.txSr ∧ t.stripOut = s.stripOut ∧
    t.leds.map Led.snap = s.leds.map Led.snap

/-- R254, R263. `SCLK` reads the snapshot and its own registers only, and writes its own registers and the
strip output only: two states that agree on those put out the same and agree on them afterwards. -/
def Obligations.SclkSeesOnlyTheSnapshot : Prop :=
  ∀ s s' t, s'.txBusy = s.txBusy → s'.txPos = s.txPos → s'.txBits = s.txBits → s'.txSr = s.txSr → s'.n = s.n →
    s'.leds.map Led.snap = s.leds.map Led.snap → exec .sclk s = .next t →
    t = { s with txBusy := t.txBusy, txPos := t.txPos, txBits := t.txBits, txSr := t.txSr, stripOut := t.stripOut } ∧
    ∃ t' out, exec .sclk s' = .next t' ∧ t.stripOut = s.stripOut ++ out ∧ t'.stripOut = s'.stripOut ++ out ∧
      t'.txBusy = t.txBusy ∧ t'.txPos = t.txPos ∧ t'.txBits = t.txBits ∧ t'.txSr = t.txSr

/-- R285. An `SCLK` step commutes with the main-line steps it can interrupt: with every byte, and with a
tick where the frame is not over. -/
def Obligations.SclkCommutesWithTheMainLine : Prop :=
  (∀ s b s1 t1, exec .sclk s = .next s1 → exec (.byteIn b) s = .next t1 →
    ∃ u, exec (.byteIn b) s1 = .next u ∧ exec .sclk t1 = .next u) ∧
  ∀ s s1 t1, s.txBusy = true → exec .sclk s = .next s1 → s1.txBusy = true → exec .timerTick s = .next t1 →
    ∃ u, exec .timerTick s1 = .next u ∧ exec .sclk t1 = .next u

/-- R41, R316. No instruction changes the configuration, and none creates or destroys an LED. That the
configuration stands in the state is the model's choice (log entry 5). -/
def Obligations.NothingIsCreatedOrDestroyed : Prop :=
  ∀ i s t, exec i s = .next t → t.cfg = s.cfg ∧ (s.leds.length = s.n → t.leds.length = s.leds.length)

/-! ### Lines and messages -/

/-- R152 (b). From `Idle`, a line with any text that is no recognised command is answered exactly `OK` after
the two echoes, and leaves the LEDs, the watchdog and the transmitter alone. -/
def Obligations.UnrecognisedLineIsAnsweredOk : Prop :=
  ∀ s text, s.ps = .idle → s.buf.wf = true → (∀ b ∈ text, b ≠ 0x0D ∧ b ≠ 0x1B) → text.length < s.cfg.cap →
    commandOf s.cfg.z9Match text = .otherCmd →
    ∃ t, execAll (byteEvents (commandLine text)) s = .next t ∧
      t = { s with buf := t.buf, len := t.len, ps := .waitingForLineFeed, replyOut := t.replyOut } ∧
      t.replyOut = s.replyOut ++ [0x0D, 0x0A] ++ [0x0D, 0x0A] ++ [0x4F, 0x4B, 0x0D, 0x0A]

/-- R152 (a). From `Idle`, a line whose text begins `+CPIN?` is answered exactly the status and `OK` after
the two echoes. -/
def Obligations.StatusLineIsAnswered : Prop :=
  ∀ s text, s.ps = .idle → s.buf.wf = true → (∀ b ∈ text, b ≠ 0x0D ∧ b ≠ 0x1B) → text.length < s.cfg.cap →
    [0x2B, 0x43, 0x50, 0x49, 0x4E, 0x3F] <+: text →
    ∃ t, execAll (byteEvents (commandLine text)) s = .next t ∧
      t = { s with buf := t.buf, len := t.len, ps := .waitingForLineFeed, replyOut := t.replyOut } ∧
      t.replyOut = s.replyOut ++ [0x0D, 0x0A] ++ [0x0D, 0x0A] ++
        [0x2B, 0x43, 0x50, 0x49, 0x4E, 0x3A, 0x20, 0x52, 0x45, 0x41, 0x44, 0x59, 0x0D, 0x0A] ++ [0x4F, 0x4B, 0x0D, 0x0A]

/-- R152 (c), R121. From `Idle`, `AT+CMGS=` and a message built as R121 says around any text that fits end
in `Idle` with a trailing `OK`, and leave the LEDs and the scratch slot as exactly the text's strip
commands, in order, leave them. -/
def Obligations.MessageAppliesItsText : Prop :=
  ∀ s cmd front alen middle text, s.ps = .idle → s.buf.wf = true → s.cfg.envSkip = 7 →
    (∀ b ∈ cmd, b ≠ 0x0D ∧ b ≠ 0x1B) → cmd.length < s.cfg.cap → [0x2B, 0x43, 0x4D, 0x47, 0x53, 0x3D] <+: cmd →
    middle.length = (BitVec.toNat alen + 1) / 2 + 3 → text.length ≤ 255 →
    (envelope front alen middle text).length ≤ s.cfg.cap - 1 →
    ∃ t u,
      execAll (byteEvents (commandLine cmd ++ hexText (envelope front alen middle text) ++ [0x1A])) s = .next t ∧
      execAll (text.map stripRow) { s with idx := 1 } = .next u ∧
      t.leds = u.leds ∧ t.scratch = u.scratch ∧ t.ps = .idle ∧ t.wdtArmed = s.wdtArmed ∧
      t.replyOut = s.replyOut ++ [0x0D, 0x0A] ++ [0x0D, 0x0A] ++ [0x3E, 0x20] ++ [0x4F, 0x4B, 0x0D, 0x0A]
end

