-- ==== Sys2Proof/Laws/State.lean ====
section
/-! SUPPORT. What each named update leaves in each field of the state: one lemma per field and update. -/
namespace Sys2Proof.Machine

/-! ### `State.setPs` -/

@[simp] theorem State.setPs_cfg (s : State) (p : ParserState) : (s.setPs p).cfg = s.cfg := rfl
@[simp] theorem State.setPs_ps (s : State) (p : ParserState) : (s.setPs p).ps = p := rfl
@[simp] theorem State.setPs_buf (s : State) (p : ParserState) : (s.setPs p).buf = s.buf := rfl
@[simp] theorem State.setPs_len (s : State) (p : ParserState) : (s.setPs p).len = s.len := rfl
@[simp] theorem State.setPs_haveHi (s : State) (p : ParserState) : (s.setPs p).haveHi = s.haveHi := rfl
@[simp] theorem State.setPs_hiNib (s : State) (p : ParserState) : (s.setPs p).hiNib = s.hiNib := rfl
@[simp] theorem State.setPs_wdtArmed (s : State) (p : ParserState) : (s.setPs p).wdtArmed = s.wdtArmed := rfl
@[simp] theorem State.setPs_scratch (s : State) (p : ParserState) : (s.setPs p).scratch = s.scratch := rfl
@[simp] theorem State.setPs_leds (s : State) (p : ParserState) : (s.setPs p).leds = s.leds := rfl
@[simp] theorem State.setPs_txBusy (s : State) (p : ParserState) : (s.setPs p).txBusy = s.txBusy := rfl
@[simp] theorem State.setPs_txPos (s : State) (p : ParserState) : (s.setPs p).txPos = s.txPos := rfl
@[simp] theorem State.setPs_txBits (s : State) (p : ParserState) : (s.setPs p).txBits = s.txBits := rfl
@[simp] theorem State.setPs_txSr (s : State) (p : ParserState) : (s.setPs p).txSr = s.txSr := rfl
@[simp] theorem State.setPs_idx (s : State) (p : ParserState) : (s.setPs p).idx = s.idx := rfl
@[simp] theorem State.setPs_inputs (s : State) (p : ParserState) : (s.setPs p).inputs = s.inputs := rfl
@[simp] theorem State.setPs_choice (s : State) (p : ParserState) : (s.setPs p).choice = s.choice := rfl
@[simp] theorem State.setPs_replyOut (s : State) (p : ParserState) : (s.setPs p).replyOut = s.replyOut := rfl
@[simp] theorem State.setPs_stripOut (s : State) (p : ParserState) : (s.setPs p).stripOut = s.stripOut := rfl

/-! ### `State.emit` -/

@[simp] theorem State.emit_cfg (s : State) (r : List Byte) : (s.emit r).cfg = s.cfg := rfl
@[simp] theorem State.emit_ps (s : State) (r : List Byte) : (s.emit r).ps = s.ps := rfl
@[simp] theorem State.emit_buf (s : State) (r : List Byte) : (s.emit r).buf = s.buf := rfl
@[simp] theorem State.emit_len (s : State) (r : List Byte) : (s.emit r).len = s.len := rfl
@[simp] theorem State.emit_haveHi (s : State) (r : List Byte) : (s.emit r).haveHi = s.haveHi := rfl
@[simp] theorem State.emit_hiNib (s : State) (r : List Byte) : (s.emit r).hiNib = s.hiNib := rfl
@[simp] theorem State.emit_wdtArmed (s : State) (r : List Byte) : (s.emit r).wdtArmed = s.wdtArmed := rfl
@[simp] theorem State.emit_scratch (s : State) (r : List Byte) : (s.emit r).scratch = s.scratch := rfl
@[simp] theorem State.emit_leds (s : State) (r : List Byte) : (s.emit r).leds = s.leds := rfl
@[simp] theorem State.emit_txBusy (s : State) (r : List Byte) : (s.emit r).txBusy = s.txBusy := rfl
@[simp] theorem State.emit_txPos (s : State) (r : List Byte) : (s.emit r).txPos = s.txPos := rfl
@[simp] theorem State.emit_txBits (s : State) (r : List Byte) : (s.emit r).txBits = s.txBits := rfl
@[simp] theorem State.emit_txSr (s : State) (r : List Byte) : (s.emit r).txSr = s.txSr := rfl
@[simp] theorem State.emit_idx (s : State) (r : List Byte) : (s.emit r).idx = s.idx := rfl
@[simp] theorem State.emit_inputs (s : State) (r : List Byte) : (s.emit r).inputs = s.inputs := rfl
@[simp] theorem State.emit_choice (s : State) (r : List Byte) : (s.emit r).choice = s.choice := rfl
@[simp] theorem State.emit_replyOut (s : State) (r : List Byte) : (s.emit r).replyOut = s.replyOut ++ r := rfl
@[simp] theorem State.emit_stripOut (s : State) (r : List Byte) : (s.emit r).stripOut = s.stripOut := rfl

/-! ### `State.emitSymbol` -/

@[simp] theorem State.emitSymbol_cfg (s : State) (x : Symbol) : (s.emitSymbol x).cfg = s.cfg := rfl
@[simp] theorem State.emitSymbol_ps (s : State) (x : Symbol) : (s.emitSymbol x).ps = s.ps := rfl
@[simp] theorem State.emitSymbol_buf (s : State) (x : Symbol) : (s.emitSymbol x).buf = s.buf := rfl
@[simp] theorem State.emitSymbol_len (s : State) (x : Symbol) : (s.emitSymbol x).len = s.len := rfl
@[simp] theorem State.emitSymbol_haveHi (s : State) (x : Symbol) : (s.emitSymbol x).haveHi = s.haveHi := rfl
@[simp] theorem State.emitSymbol_hiNib (s : State) (x : Symbol) : (s.emitSymbol x).hiNib = s.hiNib := rfl
@[simp] theorem State.emitSymbol_wdtArmed (s : State) (x : Symbol) : (s.emitSymbol x).wdtArmed = s.wdtArmed := rfl
@[simp] theorem State.emitSymbol_scratch (s : State) (x : Symbol) : (s.emitSymbol x).scratch = s.scratch := rfl
@[simp] theorem State.emitSymbol_leds (s : State) (x : Symbol) : (s.emitSymbol x).leds = s.leds := rfl
@[simp] theorem State.emitSymbol_txBusy (s : State) (x : Symbol) : (s.emitSymbol x).txBusy = s.txBusy := rfl
@[simp] theorem State.emitSymbol_txPos (s : State) (x : Symbol) : (s.emitSymbol x).txPos = s.txPos := rfl
@[simp] theorem State.emitSymbol_txBits (s : State) (x : Symbol) : (s.emitSymbol x).txBits = s.txBits := rfl
@[simp] theorem State.emitSymbol_txSr (s : State) (x : Symbol) : (s.emitSymbol x).txSr = s.txSr := rfl
@[simp] theorem State.emitSymbol_idx (s : State) (x : Symbol) : (s.emitSymbol x).idx = s.idx := rfl
@[simp] theorem State.emitSymbol_inputs (s : State) (x : Symbol) : (s.emitSymbol x).inputs = s.inputs := rfl
@[simp] theorem State.emitSymbol_choice (s : State) (x : Symbol) : (s.emitSymbol x).choice = s.choice := rfl
@[simp] theorem State.emitSymbol_replyOut (s : State) (x : Symbol) : (s.emitSymbol x).replyOut = s.replyOut := rfl
@[simp] theorem State.emitSymbol_stripOut (s : State) (x : Symbol) : (s.emitSymbol x).stripOut = s.stripOut ++ [x] := rfl

/-! ### `State.armWatchdog` -/

@[simp] theorem State.armWatchdog_cfg (s : State) : s.armWatchdog.cfg = s.cfg := rfl
@[simp] theorem State.armWatchdog_ps (s : State) : s.armWatchdog.ps = s.ps := rfl
@[simp] theorem State.armWatchdog_buf (s : State) : s.armWatchdog.buf = s.buf := rfl
@[simp] theorem State.armWatchdog_len (s : State) : s.armWatchdog.len = s.len := rfl
@[simp] theorem State.armWatchdog_haveHi (s : State) : s.armWatchdog.haveHi = s.haveHi := rfl
@[simp] theorem State.armWatchdog_hiNib (s : State) : s.armWatchdog.hiNib = s.hiNib := rfl
@[simp] theorem State.armWatchdog_wdtArmed (s : State) : s.armWatchdog.wdtArmed = true := rfl
@[simp] theorem State.armWatchdog_scratch (s : State) : s.armWatchdog.scratch = s.scratch := rfl
@[simp] theorem State.armWatchdog_leds (s : State) : s.armWatchdog.leds = s.leds := rfl
@[simp] theorem State.armWatchdog_txBusy (s : State) : s.armWatchdog.txBusy = s.txBusy := rfl
@[simp] theorem State.armWatchdog_txPos (s : State) : s.armWatchdog.txPos = s.txPos := rfl
@[simp] theorem State.armWatchdog_txBits (s : State) : s.armWatchdog.txBits = s.txBits := rfl
@[simp] theorem State.armWatchdog_txSr (s : State) : s.armWatchdog.txSr = s.txSr := rfl
@[simp] theorem State.armWatchdog_idx (s : State) : s.armWatchdog.idx = s.idx := rfl
@[simp] theorem State.armWatchdog_inputs (s : State) : s.armWatchdog.inputs = s.inputs := rfl
@[simp] theorem State.armWatchdog_choice (s : State) : s.armWatchdog.choice = s.choice := rfl
@[simp] theorem State.armWatchdog_replyOut (s : State) : s.armWatchdog.replyOut = s.replyOut := rfl
@[simp] theorem State.armWatchdog_stripOut (s : State) : s.armWatchdog.stripOut = s.stripOut := rfl

/-! ### `State.setNibble` -/

@[simp] theorem State.setNibble_cfg (s : State) (h : Bool) (m : BitVec 4) : (s.setNibble h m).cfg = s.cfg := rfl
@[simp] theorem State.setNibble_ps (s : State) (h : Bool) (m : BitVec 4) : (s.setNibble h m).ps = s.ps := rfl
@[simp] theorem State.setNibble_buf (s : State) (h : Bool) (m : BitVec 4) : (s.setNibble h m).buf = s.buf := rfl
@[simp] theorem State.setNibble_len (s : State) (h : Bool) (m : BitVec 4) : (s.setNibble h m).len = s.len := rfl
@[simp] theorem State.setNibble_haveHi (s : State) (h : Bool) (m : BitVec 4) : (s.setNibble h m).haveHi = h := rfl
@[simp] theorem State.setNibble_hiNib (s : State) (h : Bool) (m : BitVec 4) : (s.setNibble h m).hiNib = m := rfl
@[simp] theorem State.setNibble_wdtArmed (s : State) (h : Bool) (m : BitVec 4) : (s.setNibble h m).wdtArmed = s.wdtArmed := rfl
@[simp] theorem State.setNibble_scratch (s : State) (h : Bool) (m : BitVec 4) : (s.setNibble h m).scratch = s.scratch := rfl
@[simp] theorem State.setNibble_leds (s : State) (h : Bool) (m : BitVec 4) : (s.setNibble h m).leds = s.leds := rfl
@[simp] theorem State.setNibble_txBusy (s : State) (h : Bool) (m : BitVec 4) : (s.setNibble h m).txBusy = s.txBusy := rfl
@[simp] theorem State.setNibble_txPos (s : State) (h : Bool) (m : BitVec 4) : (s.setNibble h m).txPos = s.txPos := rfl
@[simp] theorem State.setNibble_txBits (s : State) (h : Bool) (m : BitVec 4) : (s.setNibble h m).txBits = s.txBits := rfl
@[simp] theorem State.setNibble_txSr (s : State) (h : Bool) (m : BitVec 4) : (s.setNibble h m).txSr = s.txSr := rfl
@[simp] theorem State.setNibble_idx (s : State) (h : Bool) (m : BitVec 4) : (s.setNibble h m).idx = s.idx := rfl
@[simp] theorem State.setNibble_inputs (s : State) (h : Bool) (m : BitVec 4) : (s.setNibble h m).inputs = s.inputs := rfl
@[simp] theorem State.setNibble_choice (s : State) (h : Bool) (m : BitVec 4) : (s.setNibble h m).choice = s.choice := rfl
@[simp] theorem State.setNibble_replyOut (s : State) (h : Bool) (m : BitVec 4) : (s.setNibble h m).replyOut = s.replyOut := rfl
@[simp] theorem State.setNibble_stripOut (s : State) (h : Bool) (m : BitVec 4) : (s.setNibble h m).stripOut = s.stripOut := rfl

/-! ### `State.stage` -/

@[simp] theorem State.stage_cfg (s : State) (c : Colour) : (s.stage c).cfg = s.cfg := rfl
@[simp] theorem State.stage_ps (s : State) (c : Colour) : (s.stage c).ps = s.ps := rfl
@[simp] theorem State.stage_buf (s : State) (c : Colour) : (s.stage c).buf = s.buf := rfl
@[simp] theorem State.stage_len (s : State) (c : Colour) : (s.stage c).len = s.len := rfl
@[simp] theorem State.stage_haveHi (s : State) (c : Colour) : (s.stage c).haveHi = s.haveHi := rfl
@[simp] theorem State.stage_hiNib (s : State) (c : Colour) : (s.stage c).hiNib = s.hiNib := rfl
@[simp] theorem State.stage_wdtArmed (s : State) (c : Colour) : (s.stage c).wdtArmed = s.wdtArmed := rfl
@[simp] theorem State.stage_scratch (s : State) (c : Colour) : (s.stage c).scratch = c := rfl
@[simp] theorem State.stage_leds (s : State) (c : Colour) : (s.stage c).leds = s.leds := rfl
@[simp] theorem State.stage_txBusy (s : State) (c : Colour) : (s.stage c).txBusy = s.txBusy := rfl
@[simp] theorem State.stage_txPos (s : State) (c : Colour) : (s.stage c).txPos = s.txPos := rfl
@[simp] theorem State.stage_txBits (s : State) (c : Colour) : (s.stage c).txBits = s.txBits := rfl
@[simp] theorem State.stage_txSr (s : State) (c : Colour) : (s.stage c).txSr = s.txSr := rfl
@[simp] theorem State.stage_idx (s : State) (c : Colour) : (s.stage c).idx = s.idx := rfl
@[simp] theorem State.stage_inputs (s : State) (c : Colour) : (s.stage c).inputs = s.inputs := rfl
@[simp] theorem State.stage_choice (s : State) (c : Colour) : (s.stage c).choice = s.choice := rfl
@[simp] theorem State.stage_replyOut (s : State) (c : Colour) : (s.stage c).replyOut = s.replyOut := rfl
@[simp] theorem State.stage_stripOut (s : State) (c : Colour) : (s.stage c).stripOut = s.stripOut := rfl

/-! ### `State.setIdx` -/

@[simp] theorem State.setIdx_cfg (s : State) (i : BitVec 8) : (s.setIdx i).cfg = s.cfg := rfl
@[simp] theorem State.setIdx_ps (s : State) (i : BitVec 8) : (s.setIdx i).ps = s.ps := rfl
@[simp] theorem State.setIdx_buf (s : State) (i : BitVec 8) : (s.setIdx i).buf = s.buf := rfl
@[simp] theorem State.setIdx_len (s : State) (i : BitVec 8) : (s.setIdx i).len = s.len := rfl
@[simp] theorem State.setIdx_haveHi (s : State) (i : BitVec 8) : (s.setIdx i).haveHi = s.haveHi := rfl
@[simp] theorem State.setIdx_hiNib (s : State) (i : BitVec 8) : (s.setIdx i).hiNib = s.hiNib := rfl
@[simp] theorem State.setIdx_wdtArmed (s : State) (i : BitVec 8) : (s.setIdx i).wdtArmed = s.wdtArmed := rfl
@[simp] theorem State.setIdx_scratch (s : State) (i : BitVec 8) : (s.setIdx i).scratch = s.scratch := rfl
@[simp] theorem State.setIdx_leds (s : State) (i : BitVec 8) : (s.setIdx i).leds = s.leds := rfl
@[simp] theorem State.setIdx_txBusy (s : State) (i : BitVec 8) : (s.setIdx i).txBusy = s.txBusy := rfl
@[simp] theorem State.setIdx_txPos (s : State) (i : BitVec 8) : (s.setIdx i).txPos = s.txPos := rfl
@[simp] theorem State.setIdx_txBits (s : State) (i : BitVec 8) : (s.setIdx i).txBits = s.txBits := rfl
@[simp] theorem State.setIdx_txSr (s : State) (i : BitVec 8) : (s.setIdx i).txSr = s.txSr := rfl
@[simp] theorem State.setIdx_idx (s : State) (i : BitVec 8) : (s.setIdx i).idx = i := rfl
@[simp] theorem State.setIdx_inputs (s : State) (i : BitVec 8) : (s.setIdx i).inputs = s.inputs := rfl
@[simp] theorem State.setIdx_choice (s : State) (i : BitVec 8) : (s.setIdx i).choice = s.choice := rfl
@[simp] theorem State.setIdx_replyOut (s : State) (i : BitVec 8) : (s.setIdx i).replyOut = s.replyOut := rfl
@[simp] theorem State.setIdx_stripOut (s : State) (i : BitVec 8) : (s.setIdx i).stripOut = s.stripOut := rfl

/-! ### `State.setLeds` -/

@[simp] theorem State.setLeds_cfg (s : State) (l : List Led) : (s.setLeds l).cfg = s.cfg := rfl
@[simp] theorem State.setLeds_ps (s : State) (l : List Led) : (s.setLeds l).ps = s.ps := rfl
@[simp] theorem State.setLeds_buf (s : State) (l : List Led) : (s.setLeds l).buf = s.buf := rfl
@[simp] theorem State.setLeds_len (s : State) (l : List Led) : (s.setLeds l).len = s.len := rfl
@[simp] theorem State.setLeds_haveHi (s : State) (l : List Led) : (s.setLeds l).haveHi = s.haveHi := rfl
@[simp] theorem State.setLeds_hiNib (s : State) (l : List Led) : (s.setLeds l).hiNib = s.hiNib := rfl
@[simp] theorem State.setLeds_wdtArmed (s : State) (l : List Led) : (s.setLeds l).wdtArmed = s.wdtArmed := rfl
@[simp] theorem State.setLeds_scratch (s : State) (l : List Led) : (s.setLeds l).scratch = s.scratch := rfl
@[simp] theorem State.setLeds_leds (s : State) (l : List Led) : (s.setLeds l).leds = l := rfl
@[simp] theorem State.setLeds_txBusy (s : State) (l : List Led) : (s.setLeds l).txBusy = s.txBusy := rfl
@[simp] theorem State.setLeds_txPos (s : State) (l : List Led) : (s.setLeds l).txPos = s.txPos := rfl
@[simp] theorem State.setLeds_txBits (s : State) (l : List Led) : (s.setLeds l).txBits = s.txBits := rfl
@[simp] theorem State.setLeds_txSr (s : State) (l : List Led) : (s.setLeds l).txSr = s.txSr := rfl
@[simp] theorem State.setLeds_idx (s : State) (l : List Led) : (s.setLeds l).idx = s.idx := rfl
@[simp] theorem State.setLeds_inputs (s : State) (l : List Led) : (s.setLeds l).inputs = s.inputs := rfl
@[simp] theorem State.setLeds_choice (s : State) (l : List Led) : (s.setLeds l).choice = s.choice := rfl
@[simp] theorem State.setLeds_replyOut (s : State) (l : List Led) : (s.setLeds l).replyOut = s.replyOut := rfl
@[simp] theorem State.setLeds_stripOut (s : State) (l : List Led) : (s.setLeds l).stripOut = s.stripOut := rfl

/-! ### `State.setTx` -/

@[simp] theorem State.setTx_cfg (s : State) (y : Bool) (p : BitVec 10) (b : BitVec 4) (r : BitVec 8) : (s.setTx y p b r).cfg = s.cfg := rfl
@[simp] theorem State.setTx_ps (s : State) (y : Bool) (p : BitVec 10) (b : BitVec 4) (r : BitVec 8) : (s.setTx y p b r).ps = s.ps := rfl
@[simp] theorem State.setTx_buf (s : State) (y : Bool) (p : BitVec 10) (b : BitVec 4) (r : BitVec 8) : (s.setTx y p b r).buf = s.buf := rfl
@[simp] theorem State.setTx_len (s : State) (y : Bool) (p : BitVec 10) (b : BitVec 4) (r : BitVec 8) : (s.setTx y p b r).len = s.len := rfl
@[simp] theorem State.setTx_haveHi (s : State) (y : Bool) (p : BitVec 10) (b : BitVec 4) (r : BitVec 8) : (s.setTx y p b r).haveHi = s.haveHi := rfl
@[simp] theorem State.setTx_hiNib (s : State) (y : Bool) (p : BitVec 10) (b : BitVec 4) (r : BitVec 8) : (s.setTx y p b r).hiNib = s.hiNib := rfl
@[simp] theorem State.setTx_wdtArmed (s : State) (y : Bool) (p : BitVec 10) (b : BitVec 4) (r : BitVec 8) : (s.setTx y p b r).wdtArmed = s.wdtArmed := rfl
@[simp] theorem State.setTx_scratch (s : State) (y : Bool) (p : BitVec 10) (b : BitVec 4) (r : BitVec 8) : (s.setTx y p b r).scratch = s.scratch := rfl
@[simp] theorem State.setTx_leds (s : State) (y : Bool) (p : BitVec 10) (b : BitVec 4) (r : BitVec 8) : (s.setTx y p b r).leds = s.leds := rfl
@[simp] theorem State.setTx_txBusy (s : State) (y : Bool) (p : BitVec 10) (b : BitVec 4) (r : BitVec 8) : (s.setTx y p b r).txBusy = y := rfl
@[simp] theorem State.setTx_txPos (s : State) (y : Bool) (p : BitVec 10) (b : BitVec 4) (r : BitVec 8) : (s.setTx y p b r).txPos = p := rfl
@[simp] theorem State.setTx_txBits (s : State) (y : Bool) (p : BitVec 10) (b : BitVec 4) (r : BitVec 8) : (s.setTx y p b r).txBits = b := rfl
@[simp] theorem State.setTx_txSr (s : State) (y : Bool) (p : BitVec 10) (b : BitVec 4) (r : BitVec 8) : (s.setTx y p b r).txSr = r := rfl
@[simp] theorem State.setTx_idx (s : State) (y : Bool) (p : BitVec 10) (b : BitVec 4) (r : BitVec 8) : (s.setTx y p b r).idx = s.idx := rfl
@[simp] theorem State.setTx_inputs (s : State) (y : Bool) (p : BitVec 10) (b : BitVec 4) (r : BitVec 8) : (s.setTx y p b r).inputs = s.inputs := rfl
@[simp] theorem State.setTx_choice (s : State) (y : Bool) (p : BitVec 10) (b : BitVec 4) (r : BitVec 8) : (s.setTx y p b r).choice = s.choice := rfl
@[simp] theorem State.setTx_replyOut (s : State) (y : Bool) (p : BitVec 10) (b : BitVec 4) (r : BitVec 8) : (s.setTx y p b r).replyOut = s.replyOut := rfl
@[simp] theorem State.setTx_stripOut (s : State) (y : Bool) (p : BitVec 10) (b : BitVec 4) (r : BitVec 8) : (s.setTx y p b r).stripOut = s.stripOut := rfl

/-! ### `State.setBuffer` -/

@[simp] theorem State.setBuffer_cfg (s : State) (b : Buffer) (k : BitVec 8) : (s.setBuffer b k).cfg = s.cfg := rfl
@[simp] theorem State.setBuffer_ps (s : State) (b : Buffer) (k : BitVec 8) : (s.setBuffer b k).ps = s.ps := rfl
@[simp] theorem State.setBuffer_buf (s : State) (b : Buffer) (k : BitVec 8) : (s.setBuffer b k).buf = b := rfl
@[simp] theorem State.setBuffer_len (s : State) (b : Buffer) (k : BitVec 8) : (s.setBuffer b k).len = k := rfl
@[simp] theorem State.setBuffer_haveHi (s : State) (b : Buffer) (k : BitVec 8) : (s.setBuffer b k).haveHi = s.haveHi := rfl
@[simp] theorem State.setBuffer_hiNib (s : State) (b : Buffer) (k : BitVec 8) : (s.setBuffer b k).hiNib = s.hiNib := rfl
@[simp] theorem State.setBuffer_wdtArmed (s : State) (b : Buffer) (k : BitVec 8) : (s.setBuffer b k).wdtArmed = s.wdtArmed := rfl
@[simp] theorem State.setBuffer_scratch (s : State) (b : Buffer) (k : BitVec 8) : (s.setBuffer b k).scratch = s.scratch := rfl
@[simp] theorem State.setBuffer_leds (s : State) (b : Buffer) (k : BitVec 8) : (s.setBuffer b k).leds = s.leds := rfl
@[simp] theorem State.setBuffer_txBusy (s : State) (b : Buffer) (k : BitVec 8) : (s.setBuffer b k).txBusy = s.txBusy := rfl
@[simp] theorem State.setBuffer_txPos (s : State) (b : Buffer) (k : BitVec 8) : (s.setBuffer b k).txPos = s.txPos := rfl
@[simp] theorem State.setBuffer_txBits (s : State) (b : Buffer) (k : BitVec 8) : (s.setBuffer b k).txBits = s.txBits := rfl
@[simp] theorem State.setBuffer_txSr (s : State) (b : Buffer) (k : BitVec 8) : (s.setBuffer b k).txSr = s.txSr := rfl
@[simp] theorem State.setBuffer_idx (s : State) (b : Buffer) (k : BitVec 8) : (s.setBuffer b k).idx = s.idx := rfl
@[simp] theorem State.setBuffer_inputs (s : State) (b : Buffer) (k : BitVec 8) : (s.setBuffer b k).inputs = s.inputs := rfl
@[simp] theorem State.setBuffer_choice (s : State) (b : Buffer) (k : BitVec 8) : (s.setBuffer b k).choice = s.choice := rfl
@[simp] theorem State.setBuffer_replyOut (s : State) (b : Buffer) (k : BitVec 8) : (s.setBuffer b k).replyOut = s.replyOut := rfl
@[simp] theorem State.setBuffer_stripOut (s : State) (b : Buffer) (k : BitVec 8) : (s.setBuffer b k).stripOut = s.stripOut := rfl

/-! ### `State.setInputs` -/

@[simp] theorem State.setInputs_cfg (s : State) (q : List Instant) (k : Nat) : (s.setInputs q k).cfg = s.cfg := rfl
@[simp] theorem State.setInputs_ps (s : State) (q : List Instant) (k : Nat) : (s.setInputs q k).ps = s.ps := rfl
@[simp] theorem State.setInputs_buf (s : State) (q : List Instant) (k : Nat) : (s.setInputs q k).buf = s.buf := rfl
@[simp] theorem State.setInputs_len (s : State) (q : List Instant) (k : Nat) : (s.setInputs q k).len = s.len := rfl
@[simp] theorem State.setInputs_haveHi (s : State) (q : List Instant) (k : Nat) : (s.setInputs q k).haveHi = s.haveHi := rfl
@[simp] theorem State.setInputs_hiNib (s : State) (q : List Instant) (k : Nat) : (s.setInputs q k).hiNib = s.hiNib := rfl
@[simp] theorem State.setInputs_wdtArmed (s : State) (q : List Instant) (k : Nat) : (s.setInputs q k).wdtArmed = s.wdtArmed := rfl
@[simp] theorem State.setInputs_scratch (s : State) (q : List Instant) (k : Nat) : (s.setInputs q k).scratch = s.scratch := rfl
@[simp] theorem State.setInputs_leds (s : State) (q : List Instant) (k : Nat) : (s.setInputs q k).leds = s.leds := rfl
@[simp] theorem State.setInputs_txBusy (s : State) (q : List Instant) (k : Nat) : (s.setInputs q k).txBusy = s.txBusy := rfl
@[simp] theorem State.setInputs_txPos (s : State) (q : List Instant) (k : Nat) : (s.setInputs q k).txPos = s.txPos := rfl
@[simp] theorem State.setInputs_txBits (s : State) (q : List Instant) (k : Nat) : (s.setInputs q k).txBits = s.txBits := rfl
@[simp] theorem State.setInputs_txSr (s : State) (q : List Instant) (k : Nat) : (s.setInputs q k).txSr = s.txSr := rfl
@[simp] theorem State.setInputs_idx (s : State) (q : List Instant) (k : Nat) : (s.setInputs q k).idx = s.idx := rfl
@[simp] theorem State.setInputs_inputs (s : State) (q : List Instant) (k : Nat) : (s.setInputs q k).inputs = q := rfl
@[simp] theorem State.setInputs_choice (s : State) (q : List Instant) (k : Nat) : (s.setInputs q k).choice = k := rfl
@[simp] theorem State.setInputs_replyOut (s : State) (q : List Instant) (k : Nat) : (s.setInputs q k).replyOut = s.replyOut := rfl
@[simp] theorem State.setInputs_stripOut (s : State) (q : List Instant) (k : Nat) : (s.setInputs q k).stripOut = s.stripOut := rfl

end Sys2Proof.Machine
end

