-- ==== Sys2Proof/Laws/Leds.lean ====
section
/-! SUPPORT. One LED through `SetTarget`, `Tick` and the trigger, and the lists of LEDs through
`SetTarget` and `Shift`. -/
namespace Sys2Proof.Machine

/-! ### Lanes (R236) -/

theorem get_map2 {α β γ : Type} (f : α → β → γ) (s : Chan α) (t : Chan β) (c : Fin 3) :
    (Chan.map2 f s t).get c = f (s.get c) (t.get c) := by
  match c with
  | 0 => rfl
  | 1 => rfl
  | 2 => rfl

theorem get_map3 {α β γ δ : Type} (f : α → β → γ → δ) (s : Chan α) (t : Chan β) (u : Chan γ) (c : Fin 3) :
    (Chan.map3 f s t u).get c = f (s.get c) (t.get c) (u.get c) := by
  match c with
  | 0 => rfl
  | 1 => rfl
  | 2 => rfl

theorem get_fill {α : Type} (x : α) (c : Fin 3) : (Chan.fill x).get c = x := by
  match c with
  | 0 => rfl
  | 1 => rfl
  | 2 => rfl

/-! ### Steps (R223, R224, R231) -/

theorem channelDist_le (cur tgt : Byte) : channelDist cur tgt ≤ 255 := by
  have := cur.isLt
  have := tgt.isLt
  unfold channelDist
  split <;> omega

/-- The packed step as a number: the magnitude, and 1 more when the channel falls (R220, R231). -/
theorem fadeStep_toNat (shift : Fin 5) (cur tgt : Byte) :
    (fadeStep shift cur tgt).toNat
      = channelDist cur tgt * 2 ^ (8 - shift.val) + (if fallsTo cur tgt then 1 else 0) := by
  have hd := channelDist_le cur tgt
  have hs := shift.isLt
  unfold fadeStep
  generalize channelDist cur tgt = d at *
  have hlt : d * 2 ^ (8 - shift.val) < 65536 := by
    have : 2 ^ (8 - shift.val) ≤ 2 ^ 8 := Nat.pow_le_pow_right (by omega) (by omega)
    calc d * 2 ^ (8 - shift.val) ≤ 255 * 2 ^ 8 := Nat.mul_le_mul hd this
      _ < 65536 := by norm_num
  have hsh : (BitVec.ofNat 16 d <<< (8 - shift.val)).toNat = d * 2 ^ (8 - shift.val) := by
    rw [BitVec.toNat_shiftLeft, BitVec.toNat_ofNat, Nat.shiftLeft_eq, Nat.mod_eq_of_lt (by omega : d < 2 ^ 16)]
    exact Nat.mod_eq_of_lt (by omega)
  have heven : d * 2 ^ (8 - shift.val) = 2 ^ 1 * (d * 2 ^ (7 - shift.val)) := by
    rw [show 8 - shift.val = (7 - shift.val) + 1 by omega, pow_succ]
    ring
  rw [BitVec.toNat_or, hsh]
  split
  · change _ ||| 1 = _
    rw [heven, ← Nat.two_pow_add_eq_or_of_lt (by norm_num : 1 < 2 ^ 1)]
  · change _ ||| 0 = _
    simp

/-- The direction read back from a step is the direction it was made with (R224). -/
theorem stepFalls_fadeStep (shift : Fin 5) (cur tgt : Byte) :
    stepFalls (fadeStep shift cur tgt) = fallsTo cur tgt := by
  unfold stepFalls
  rw [BitVec.getLsbD, fadeStep_toNat, Nat.testBit_zero]
  have hs := shift.isLt
  rw [show 8 - shift.val = (7 - shift.val) + 1 by omega, pow_succ, ← Nat.mul_assoc]
  generalize channelDist cur tgt * 2 ^ (7 - shift.val) = x
  cases fallsTo cur tgt <;> simp

/-! ### One channel through one tick (R230, R232) -/

/-- The arithmetic of R232: the whole units and the fraction of tick `k + 1`. -/
theorem lane_arith (shift : Fin 5) (d dir k : Nat) (hdir : dir ≤ 1)
    (hk : k < 2 ^ shift.val) :
    let f := 2 ^ shift.val
    let step := d * 2 ^ (8 - shift.val) + dir
    let frac := k * (d % f * (256 / f) + dir) % 256
    (frac + step % 256) % 256 = (k + 1) * (d % f * (256 / f) + dir) % 256 ∧
      k * d / f + (step / 256 + (frac + step % 256) / 256) = (k + 1) * d / f := by
  have split : ∀ f g : Nat, f * g = 256 → 0 < f → 16 ≤ g → k < f →
      (k * (d % f * g + dir) % 256 + (d * g + dir) % 256) % 256 = (k + 1) * (d % f * g + dir) % 256 ∧
      k * d / f + ((d * g + dir) / 256 + (k * (d % f * g + dir) % 256 + (d * g + dir) % 256) / 256)
        = (k + 1) * d / f := by
    intro f g hfg hf hg hkf
    have hdm : d = f * (d / f) + d % f := (Nat.div_add_mod d f).symm
    have hr : d % f < f := Nat.mod_lt _ hf
    generalize hqd : d / f = q at *
    generalize hrd : d % f = r at *
    have hlow : r * g + dir < 256 := by
      have : (r + 1) * g ≤ f * g := Nat.mul_le_mul_right _ hr
      have : r * g + g ≤ 256 := by rw [← hfg]; linarith [this, Nat.succ_mul r g]
      omega
    have hstep : d * g + dir = 256 * q + (r * g + dir) := by
      rw [hdm, ← hfg]; ring
    have hdiv : ∀ j, j ≤ f → (j * (r * g + dir)) / 256 = j * r / f := by
      intro j hj
      have hm : j * r % f < f := Nat.mod_lt _ hf
      have hjr : j * r = f * (j * r / f) + j * r % f := (Nat.div_add_mod _ _).symm
      have hsmall : (j * r % f) * g + j * dir < 256 := by
        rcases Nat.lt_or_ge j f with hlt | hge
        · have h1 : (j * r % f + 1) * g ≤ f * g := Nat.mul_le_mul_right _ hm
          have h2 : j * dir ≤ j * 1 := Nat.mul_le_mul_left _ hdir
          have h3 : f ≤ 16 := by
            have h4 : f * 16 ≤ f * g := Nat.mul_le_mul_left _ hg
            omega
          have : j * r % f * g + g ≤ 256 := by rw [← hfg]; linarith [h1, Nat.succ_mul (j * r % f) g]
          omega
        · have hjf : j = f := by omega
          subst hjf
          have h2 : j * dir ≤ j * 1 := Nat.mul_le_mul_left _ hdir
          have h4 : j * 16 ≤ j * g := Nat.mul_le_mul_left _ hg
          simp
          omega
      have : j * (r * g + dir) = 256 * (j * r / f) + ((j * r % f) * g + j * dir) := by
        calc j * (r * g + dir) = (j * r) * g + j * dir := by ring
          _ = (f * (j * r / f) + j * r % f) * g + j * dir := by rw [← hjr]
          _ = (f * g) * (j * r / f) + ((j * r % f) * g + j * dir) := by ring
          _ = _ := by rw [hfg]
      rw [this, Nat.mul_add_div (by norm_num), Nat.div_eq_of_lt hsmall, Nat.add_zero]
    have hmul : ∀ j, j * d / f = j * q + j * r / f := by
      intro j
      have : j * d = f * (j * q) + j * r := by rw [hdm]; ring
      rw [this, Nat.mul_add_div hf]
    have hk1 := hdiv (k + 1) (by omega)
    have hk0 := hdiv k (by omega)
    have hs : (k + 1) * (r * g + dir) = k * (r * g + dir) + (r * g + dir) := Nat.succ_mul _ _
    have hm1 := hmul (k + 1)
    have hm0 := hmul k
    have hq1 : (k + 1) * q = k * q + q := Nat.succ_mul _ _
    rw [hstep]
    generalize r * g + dir = low at *
    omega
  have hs := shift.isLt
  have hpow : 2 ^ shift.val * 2 ^ (8 - shift.val) = 256 := by
    rw [← pow_add]
    rw [show shift.val + (8 - shift.val) = 8 by omega]
    norm_num
  have hdivp : 256 / 2 ^ shift.val = 2 ^ (8 - shift.val) := by
    rw [← hpow, Nat.mul_div_cancel_left _ (by positivity)]
  have hg : 16 ≤ 2 ^ (8 - shift.val) := by
    calc 16 = 2 ^ 4 := by norm_num
      _ ≤ _ := Nat.pow_le_pow_right (by norm_num) (by omega)
  have := split (2 ^ shift.val) (2 ^ (8 - shift.val)) hpow (by positivity) hg hk
  intro f step frac
  simp only [f, step, frac, hdivp]
  exact this

/-- One channel, one tick: a fade goes from `k` ticks in to `k + 1` ticks in (R230, R232). -/
theorem lane_tick (cfg : Config) (k : Nat) (hk : k < cfg.fadeTicks) (v0 v1 : Byte) :
    laneCur (fadedChannel cfg.fadeTicks k v0 v1) (fadeStep cfg.fadeShift v0 v1) (fadedFrac cfg.fadeTicks k v0 v1)
        = fadedChannel cfg.fadeTicks (k + 1) v0 v1 ∧
      laneFrac (fadeStep cfg.fadeShift v0 v1) (fadedFrac cfg.fadeTicks k v0 v1)
        = fadedFrac cfg.fadeTicks (k + 1) v0 v1 := by
  obtain ⟨h1, h2⟩ := lane_arith cfg.fadeShift (channelDist v0 v1) (if fallsTo v0 v1 then 1 else 0) k
    (by split <;> omega) hk
  have hfr : (fadedFrac cfg.fadeTicks k v0 v1).toNat
      = k * (channelDist v0 v1 % 2 ^ cfg.fadeShift.val * (256 / 2 ^ cfg.fadeShift.val)
        + (if fallsTo v0 v1 then 1 else 0)) % 256 := by
    simp [fadedFrac, Config.fadeTicks]
  constructor
  · unfold laneCur fadedChannel laneDelta laneSum
    rw [stepFalls_fadeStep, hfr, fadeStep_toNat]
    unfold Config.fadeTicks
    rw [← h2]
    split
    · rw [sub_sub, ← BitVec.ofNat_add]
    · rw [BitVec.add_assoc, ← BitVec.ofNat_add]
  · unfold laneFrac laneSum
    rw [hfr, fadeStep_toNat]
    unfold fadedFrac Config.fadeTicks
    apply BitVec.eq_of_toNat_eq
    rw [BitVec.toNat_ofNat, BitVec.toNat_ofNat]
    exact h1

/-- A fade begins at its start value (R232 at `k = 0`). -/
theorem fadedChannel_zero (ticks : Nat) (v0 v1 : Byte) : fadedChannel ticks 0 v0 v1 = v0 := by
  simp [fadedChannel]

@[simp] theorem fadedFrac_zero (ticks : Nat) (v0 v1 : Byte) : fadedFrac ticks 0 v0 v1 = 0 := by
  simp [fadedFrac]

/-- A fade ends exactly at its target (R233). -/
theorem fadedChannel_end (cfg : Config) (v0 v1 : Byte) :
    fadedChannel cfg.fadeTicks cfg.fadeTicks v0 v1 = v1 := by
  have hpos : 0 < cfg.fadeTicks := by unfold Config.fadeTicks; positivity
  have h0 := v0.isLt
  have h1 := v1.isLt
  unfold fadedChannel
  rw [Nat.mul_div_cancel_left _ hpos]
  unfold channelDist fallsTo
  apply BitVec.eq_of_toNat_eq
  by_cases h : v1.toNat < v0.toNat
  · rw [if_pos (by simpa using h), if_neg (by omega), BitVec.toNat_sub, BitVec.toNat_ofNat]
    omega
  · rw [if_neg (by simpa using h), if_pos (by omega), BitVec.toNat_add, BitVec.toNat_ofNat]
    omega

/-! ### One LED -/

theorem fadeTicks_bounds (cfg : Config) : 0 < cfg.fadeTicks ∧ cfg.fadeTicks ≤ 16 := by
  have := cfg.fadeShift.isLt
  unfold Config.fadeTicks
  refine ⟨by positivity, ?_⟩
  calc 2 ^ cfg.fadeShift.val ≤ 2 ^ 4 := Nat.pow_le_pow_right (by norm_num) (by omega)
    _ = 16 := by norm_num

/-- `SetTarget` starts a fade at the LED's live value, whatever went before (R222 to R225). -/
theorem retarget_inFade (cfg : Config) (c : Colour) (l : Led) : (l.retarget cfg c).InFade cfg l.cur 0 := by
  have := fadeTicks_bounds cfg
  refine ⟨?_, rfl, ?_, ?_⟩
  · simp only [Led.retarget, BitVec.toNat_ofNat]
    omega
  · simp [Led.retarget, Chan.map2, fadedChannel_zero]
  · simp [Led.retarget, Chan.map2, Chan.fill]

theorem retarget_inv (cfg : Config) (c : Colour) (l : Led) : (l.retarget cfg c).Inv cfg := by
  have := fadeTicks_bounds cfg
  refine .inr ⟨?_, l.cur, 0, retarget_inFade cfg c l⟩
  intro h
  have := congrArg BitVec.toNat h
  simp only [Led.retarget, BitVec.toNat_ofNat] at this
  change _ = 0 at this
  omega

/-- A tick takes a fade one tick further (R230). -/
theorem tick_inFade {cfg : Config} {v0 : Colour} {k : Nat} {l : Led} (h : l.InFade cfg v0 k) (hc : l.cnt ≠ 0) :
    l.tick.InFade cfg v0 (k + 1) := by
  have hpos : 0 < l.cnt.toNat := by
    rcases Nat.eq_zero_or_pos l.cnt.toNat with h0 | h0
    · exact absurd (BitVec.eq_of_toNat_eq h0) hc
    · exact h0
  have hcnt : (l.cnt - 1).toNat = l.cnt.toNat - 1 := by
    have hlt := l.cnt.isLt
    rw [BitVec.toNat_sub]
    change (2 ^ 8 - 1 + l.cnt.toNat) % 2 ^ 8 = _
    omega
  have hk : k < cfg.fadeTicks := by have := h.count; omega
  have ha := lane_tick cfg k hk v0.a l.tgt.a
  have hb := lane_tick cfg k hk v0.b l.tgt.b
  have hcc := lane_tick cfg k hk v0.c l.tgt.c
  unfold Led.tick
  rw [if_neg hc]
  refine ⟨?_, h.step, ?_, ?_⟩
  · have := h.count
    change (l.cnt - 1).toNat + (k + 1) = _
    omega
  · simp only [h.cur, h.step, h.frac, Chan.map3, Chan.map2, ha.1, hb.1, hcc.1]
  · simp only [h.step, h.frac, Chan.map2, ha.2, hb.2, hcc.2]

/-- An LED whose fade has run its ticks is at its target (R233). -/
theorem inFade_end {cfg : Config} {v0 : Colour} {l : Led} (h : l.InFade cfg v0 cfg.fadeTicks) : l.cur = l.tgt := by
  rw [h.cur]
  simp [Chan.map2, fadedChannel_end]

theorem tick_inv {cfg : Config} {l : Led} (h : l.Inv cfg) : l.tick.Inv cfg := by
  rcases h with ⟨h0, hcur⟩ | ⟨hc, v0, k, hf⟩
  · left
    unfold Led.tick
    rw [if_pos h0]
    exact ⟨h0, rfl⟩
  · have hf' := tick_inFade hf hc
    by_cases h0 : l.tick.cnt = 0
    · left
      have hk : k + 1 = cfg.fadeTicks := by
        have := hf'.count
        rw [h0] at this
        simpa using this
      exact ⟨h0, inFade_end (hk ▸ hf')⟩
    · exact .inr ⟨h0, v0, k + 1, hf'⟩

theorem capture_inv {cfg : Config} {l : Led} (h : l.Inv cfg) : l.capture.Inv cfg := by
  rcases h with h | ⟨hc, v0, k, hf⟩
  · exact .inl h
  · exact .inr ⟨hc, v0, k, ⟨hf.count, hf.step, hf.cur, hf.frac⟩⟩

theorem afterReset_inv (cfg : Config) : Led.afterReset.Inv cfg := .inl ⟨rfl, rfl⟩

@[simp] theorem retarget_cur (cfg : Config) (c : Colour) (l : Led) : (l.retarget cfg c).cur = l.cur := rfl
@[simp] theorem retarget_snap (cfg : Config) (c : Colour) (l : Led) : (l.retarget cfg c).snap = l.snap := rfl
@[simp] theorem retarget_tgt (cfg : Config) (c : Colour) (l : Led) : (l.retarget cfg c).tgt = c := rfl
@[simp] theorem capture_snap (l : Led) : l.capture.snap = l.cur := rfl
@[simp] theorem capture_cur (l : Led) : l.capture.cur = l.cur := rfl

@[simp] theorem tick_snap (l : Led) : l.tick.snap = l.snap := by
  unfold Led.tick
  split <;> rfl

@[simp] theorem tick_tgt (l : Led) : l.tick.tgt = l.tgt := by
  unfold Led.tick
  split <;> rfl

/-! ### The list of LEDs -/

/-- What `SetTarget` does to each LED of the list (R220, R221). -/
theorem retargetLeds_getElem? (cfg : Config) (index : Nat) (c : Colour) (l : List Led) (k : Nat) :
    (retargetLeds cfg index c l)[k]?
      = if index = 0 ∨ (index = k + 1 ∧ index ≤ cfg.n) then l[k]?.map (Led.retarget cfg c) else l[k]? := by
  cases index with
  | zero => simp [retargetLeds]
  | succ j =>
    simp only [retargetLeds]
    split
    · rename_i h
      rw [List.getElem?_modify]
      by_cases hjk : j = k
      · subst hjk; simp [h]
      · simp [hjk]
    · rename_i h
      simp [h]

/-- A change of the LEDs that moves no live colour and no snapshot, keeps their number, and leaves every
fade well formed: what a strip command can do (R23, R202). -/
structure Retargeted (cfg : Config) (l l' : List Led) : Prop where
  length : l'.length = l.length
  cur : l'.map Led.cur = l.map Led.cur
  snap : l'.map Led.snap = l.map Led.snap
  inv : (∀ x ∈ l, x.Inv cfg) → ∀ x ∈ l', x.Inv cfg

theorem Retargeted.refl (cfg : Config) (l : List Led) : Retargeted cfg l l := ⟨rfl, rfl, rfl, id⟩

theorem Retargeted.trans {cfg : Config} {l l' l'' : List Led} (h : Retargeted cfg l l')
    (h' : Retargeted cfg l' l'') : Retargeted cfg l l'' :=
  ⟨h'.length.trans h.length, h'.cur.trans h.cur, h'.snap.trans h.snap, fun hi => h'.inv (h.inv hi)⟩

theorem modify_retargeted (cfg : Config) (k : Nat) (c : Colour) (l : List Led) :
    Retargeted cfg l (l.modify k (Led.retarget cfg c)) := by
  induction l generalizing k with
  | nil => cases k <;> exact Retargeted.refl _ _
  | cons x xs ih =>
    cases k with
    | zero =>
      refine ⟨rfl, rfl, rfl, ?_⟩
      intro h y hy
      rcases List.mem_cons.mp hy with rfl | hy
      · exact retarget_inv _ _ _
      · exact h y (List.mem_cons_of_mem _ hy)
    | succ k =>
      have := ih k
      refine ⟨by simp, ?_, ?_, ?_⟩
      · simpa using this.cur
      · simpa using this.snap
      · intro h y hy
        rcases List.mem_cons.mp hy with rfl | hy
        · exact h _ List.mem_cons_self
        · exact this.inv (fun z hz => h z (List.mem_cons_of_mem _ hz)) y hy

theorem retargetLeds_retargeted (cfg : Config) (index : Nat) (c : Colour) (l : List Led) :
    Retargeted cfg l (retargetLeds cfg index c l) := by
  cases index with
  | zero =>
    refine ⟨by simp [retargetLeds], ?_, ?_, ?_⟩
    · simp [retargetLeds, List.map_map, Function.comp_def]
    · simp [retargetLeds, List.map_map, Function.comp_def]
    · intro _ x hx
      obtain ⟨y, -, rfl⟩ := List.mem_map.mp hx
      exact retarget_inv _ _ _
  | succ k =>
    simp only [retargetLeds]
    split
    · exact modify_retargeted _ _ _ _
    · exact Retargeted.refl _ _

theorem shiftLoop_retargeted (cfg : Config) (i : Nat) (l : List Led) : Retargeted cfg l (shiftLoop cfg i l) := by
  induction i using Nat.strongRecOn generalizing l with
  | _ i ih =>
    match i with
    | 0 => exact Retargeted.refl _ _
    | 1 => exact Retargeted.refl _ _
    | j + 2 =>
      simp only [shiftLoop]
      split
      · exact ih (j + 1) (by omega) l
      · exact (retargetLeds_retargeted _ _ _ _).trans (ih (j + 1) (by omega) _)

/-! ### One LED of a whole state -/

theorem led_eq_some {s : State} {i : Nat} {l : Led} :
    s.led i = some l ↔ ∃ k, i = k + 1 ∧ s.leds[k]? = some l := by
  cases i with
  | zero => simp [State.led]
  | succ k => simp [State.led]

/-- What `SetTarget` does to one LED (R220, R221). -/
theorem setTarget_led {s : State} {index : Byte} {colour : Colour} {i : Nat} {l : Led}
    (hlen : s.leds.length = s.n) (h : s.led i = some l) :
    (s.setTarget index colour).led i
      = some (if index = 0 ∨ index.toNat = i then l.retarget s.cfg colour else l) := by
  obtain ⟨k, rfl, hk⟩ := led_eq_some.mp h
  obtain ⟨hlt, -⟩ := List.getElem?_eq_some_iff.mp hk
  have hn : s.cfg.n = s.n := rfl
  have hiff : (index.toNat = 0 ∨ index.toNat = k + 1 ∧ index.toNat ≤ s.cfg.n) ↔ (index = 0 ∨ index.toNat = k + 1) := by
    constructor
    · rintro (h | h)
      · exact .inl (BitVec.eq_of_toNat_eq h)
      · exact .inr h.1
    · rintro (rfl | h)
      · exact .inl rfl
      · exact .inr ⟨h, by omega⟩
  change (retargetLeds s.cfg index.toNat colour s.leds)[k]? = _
  rw [retargetLeds_getElem?, hk]
  by_cases hc : index = 0 ∨ index.toNat = k + 1
  · rw [if_pos (hiff.mpr hc), if_pos hc]
    rfl
  · rw [if_neg fun h => hc (hiff.mp h), if_neg hc]

/-- What `Shift` does to each LED of the list, from the state before the shift (R226). -/
theorem shiftLoop_getElem? (cfg : Config) (i : Nat) (l : List Led) (hi : i ≤ cfg.n) (hl : l.length = cfg.n) (k : Nat) :
    (shiftLoop cfg i l)[k]?
      = if 1 ≤ k ∧ k < i then l[k - 1]?.bind fun p => l[k]?.map (Led.retarget cfg p.tgt) else l[k]? := by
  induction i using Nat.strongRecOn generalizing l with
  | _ i ih =>
    match i with
    | 0 => simp [shiftLoop]
    | 1 =>
      simp only [shiftLoop]
      rw [if_neg (by omega)]
    | j + 2 =>
      have hj : j < l.length := by omega
      have hlen := (retargetLeds_retargeted cfg (j + 2) l[j].tgt l).length
      simp only [shiftLoop, List.getElem?_eq_getElem hj]
      rw [ih (j + 1) (by omega) _ (by omega) (by omega)]
      simp only [retargetLeds_getElem?]
      by_cases h1 : 1 ≤ k ∧ k < j + 1
      · rw [if_pos h1, if_pos (show 1 ≤ k ∧ k < j + 2 by omega),
          if_neg (show ¬ (j + 2 = 0 ∨ j + 2 = k - 1 + 1 ∧ j + 2 ≤ cfg.n) by omega),
          if_neg (show ¬ (j + 2 = 0 ∨ j + 2 = k + 1 ∧ j + 2 ≤ cfg.n) by omega)]
      · rw [if_neg h1]
        by_cases h2 : k = j + 1
        · subst h2
          rw [if_pos (by omega), if_pos (by omega)]
          simp [List.getElem?_eq_getElem hj]
        · rw [if_neg (by omega), if_neg (by omega)]

/-- What `Tick` does to one LED (R228). -/
theorem tickLeds_led {s : State} {i : Nat} {l : Led} (h : s.led i = some l) : s.tickLeds.led i = some l.tick := by
  obtain ⟨k, rfl, hk⟩ := led_eq_some.mp h
  change (s.leds.map Led.tick)[k]? = _
  simp [hk]

end Sys2Proof.Machine
end

