-- ==== Sys2Proof/Laws/Memory.lean ====
section
/-! SUPPORT. The Command Line Buffer: what its reads, writes, clear and append do, and that each keeps
the canonical form. -/
namespace Sys2Proof.Machine

/-! ### Reads and writes of one byte -/

@[simp] theorem unlistedByte_zero : unlistedByte 0 = some 0x00 := rfl

theorem unlistedByte_pos {i : Nat} (h : i ≠ 0) : unlistedByte i = none := by simp [unlistedByte, h]

@[simp] theorem bufferRead_nil (i : Nat) : bufferRead [] i = unlistedByte i := rfl

/-- Reading an index that every listed index lies above. -/
theorem bufferRead_below {b : Buffer} {lo j : Nat} (h : bufferWfAbove (some lo) b = true) (hj : j ≤ lo) :
    bufferRead b j = unlistedByte j := by
  induction b generalizing lo with
  | nil => rfl
  | cons c rest ih =>
    obtain ⟨k, w⟩ := c
    simp only [bufferWfAbove, Bool.and_eq_true, decide_eq_true_eq] at h
    simp only [bufferRead]
    rw [if_neg (by omega)]
    exact ih h.2 (by omega)

/-- A write leaves every other byte as it was. -/
theorem bufferRead_write_other {b : Buffer} {i j : Nat} {v : Byte} (h : j ≠ i) :
    bufferRead (bufferWrite b i v) j = bufferRead b j := by
  have cell : ∀ r : Buffer, bufferRead (bufferCell i v ++ r) j = bufferRead r j := by
    intro r
    unfold bufferCell
    split <;> simp [bufferRead, h]
  induction b with
  | nil => simpa [bufferWrite] using cell []
  | cons c rest ih =>
    obtain ⟨k, w⟩ := c
    simp only [bufferWrite]
    split
    · exact cell _
    · split
      · rename_i hk
        rw [cell]
        simp [bufferRead, ← hk, h]
      · simp only [bufferRead, ih]

/-- In canonical form, a read after a write to the same index gives the value written. -/
theorem bufferRead_write_same {b : Buffer} {i : Nat} {v : Byte} (hb : b.wf = true) :
    bufferRead (bufferWrite b i v) i = some v := by
  have cell : ∀ r : Buffer, bufferRead r i = unlistedByte i →
      bufferRead (bufferCell i v ++ r) i = some v := by
    intro r hr
    unfold bufferCell
    split
    · rename_i h
      simpa [hr] using h
    · simp [bufferRead]
  unfold Buffer.wf at hb
  generalize (none : Option Nat) = lo at hb
  induction b generalizing lo with
  | nil => simpa [bufferWrite] using cell [] rfl
  | cons c rest ih =>
    obtain ⟨k, w⟩ := c
    simp only [bufferWfAbove, Bool.and_eq_true, decide_eq_true_eq] at hb
    simp only [bufferWrite]
    split
    · apply cell
      rename_i hik
      simp only [bufferRead]
      rw [if_neg (by omega), bufferRead_below hb.2 (by omega)]
    · split
      · rename_i hik
        exact cell _ (bufferRead_below hb.2 (by omega))
      · rename_i h1 h2
        simp only [bufferRead, if_neg h2]
        exact ih _ hb.2

/-- What every byte reads as after a write. -/
theorem bufferRead_write {b : Buffer} (hb : b.wf = true) (i j : Nat) (v : Byte) :
    bufferRead (bufferWrite b i v) j = if j = i then some v else bufferRead b j := by
  split
  · rename_i h; subst h; exact bufferRead_write_same hb
  · rename_i h; exact bufferRead_write_other h

theorem bufferWfAbove_cell {lo : Option Nat} {i : Nat} {v : Byte} {r : Buffer}
    (hlo : ∀ l, lo = some l → l < i) (hr : bufferWfAbove (some i) r = true)
    (hr' : bufferWfAbove lo r = true) : bufferWfAbove lo (bufferCell i v ++ r) = true := by
  unfold bufferCell
  split
  · simpa using hr'
  · rename_i h
    simp only [List.cons_append, List.nil_append, bufferWfAbove, Bool.and_eq_true, decide_eq_true_eq]
    refine ⟨⟨?_, h⟩, hr⟩
    cases lo with
    | none => rfl
    | some l => simpa using hlo l rfl

/-- A lower bound may be lowered. -/
theorem bufferWfAbove_weaken {lo lo' : Option Nat} {b : Buffer}
    (h : bufferWfAbove lo b = true) (hl : ∀ l', lo' = some l' → ∃ l, lo = some l ∧ l' ≤ l) :
    bufferWfAbove lo' b = true := by
  cases b with
  | nil => rfl
  | cons c rest =>
    simp only [bufferWfAbove, Bool.and_eq_true, decide_eq_true_eq] at h ⊢
    refine ⟨⟨?_, h.1.2⟩, h.2⟩
    cases lo' with
    | none => rfl
    | some l' =>
      obtain ⟨l, rfl, hle⟩ := hl l' rfl
      have := h.1.1
      simp only [decide_eq_true_eq] at this ⊢
      omega

/-- A write keeps the canonical form. -/
theorem bufferWrite_wf {b : Buffer} (i : Nat) (v : Byte) (hb : b.wf = true) : (bufferWrite b i v).wf = true := by
  have key : ∀ (lo : Option Nat) (b : Buffer), bufferWfAbove lo b = true → (∀ l, lo = some l → l < i) →
      bufferWfAbove lo (bufferWrite b i v) = true := by
    intro lo b
    induction b generalizing lo with
    | nil =>
      intro _ hlo
      simpa [bufferWrite] using bufferWfAbove_cell (r := []) (v := v) hlo rfl rfl
    | cons c rest ih =>
      obtain ⟨k, w⟩ := c
      intro h hlo
      have h0 := h
      simp only [bufferWfAbove, Bool.and_eq_true, decide_eq_true_eq] at h
      simp only [bufferWrite]
      split
      · rename_i hik
        refine bufferWfAbove_cell hlo ?_ h0
        simp only [bufferWfAbove, Bool.and_eq_true, decide_eq_true_eq]
        exact ⟨⟨hik, h.1.2⟩, h.2⟩
      · split
        · rename_i hik
          subst hik
          refine bufferWfAbove_cell hlo h.2 (bufferWfAbove_weaken h.2 ?_)
          intro l' hl'
          exact ⟨i, rfl, Nat.le_of_lt (hlo l' hl')⟩
        · simp only [bufferWfAbove, Bool.and_eq_true, decide_eq_true_eq]
          refine ⟨h.1, ih (some k) h.2 ?_⟩
          intro l hl
          cases hl
          omega
  exact key none b hb (by simp)

/-- A write lists no index but its own that was not listed before. -/
theorem bufferWrite_mem {b : Buffer} {i : Nat} {v : Byte} {c : Host.Cell} (h : c ∈ bufferWrite b i v) :
    c.1 = i ∨ c ∈ b := by
  have cell : ∀ r : Buffer, c ∈ bufferCell i v ++ r → c.1 = i ∨ c ∈ r := by
    intro r hc
    unfold bufferCell at hc
    split at hc
    · exact .inr (by simpa using hc)
    · rcases (by simpa using hc : c = (i, v) ∨ c ∈ r) with h | h
      · exact .inl (by rw [h])
      · exact .inr h
  induction b with
  | nil => exact cell [] (by simpa [bufferWrite] using h)
  | cons d rest ih =>
    obtain ⟨k, w⟩ := d
    simp only [bufferWrite] at h
    split at h
    · exact cell _ h
    · split at h
      · exact (cell _ h).imp id (List.mem_cons_of_mem _)
      · rcases List.mem_cons.mp h with h | h
        · exact .inr (h ▸ List.mem_cons_self)
        · exact (ih h).imp id (List.mem_cons_of_mem _)

/-- The canonical form of the empty list: the buffer after reset. -/
@[simp] theorem bufferWf_nil : Buffer.wf [] = true := rfl

/-! ### Reads of the state's buffer -/

/-- When a read of one byte answers a value. -/
theorem readBuf_eq_ok {s : State} {i : Nat} {v : Byte} :
    s.readBuf i = .ok v ↔ i < s.cfg.cap ∧ bufferRead s.buf i = some v := by
  unfold State.readBuf
  split
  · split <;> simp_all
  · simp_all

/-- A read answers from the configuration and the buffer alone. -/
theorem readBuf_congr {s t : State} {i : Nat} (hc : t.cfg = s.cfg) (hb : bufferRead t.buf i = bufferRead s.buf i) :
    t.readBuf i = s.readBuf i := by
  unfold State.readBuf
  rw [hc, hb]

/-- When a range of reads answers, and what. -/
theorem readRange_eq_ok {s : State} {i k : Nat} {vs : List Byte} :
    s.readRange i k = .ok vs ↔ vs.length = k ∧ ∀ j (h : j < vs.length), s.readBuf (i + j) = .ok vs[j] := by
  induction k generalizing i vs with
  | zero =>
    simp only [State.readRange, Except.ok.injEq]
    constructor
    · rintro rfl; simp
    · rintro ⟨h, -⟩; exact (List.length_eq_zero_iff.mp h).symm
  | succ k ih =>
    simp only [State.readRange]
    constructor
    · intro h
      split at h
      · cases h
      · rename_i v hv
        split at h
        · cases h
        · rename_i ws hws
          cases h
          obtain ⟨hl, hr⟩ := ih.mp hws
          refine ⟨by simp [hl], ?_⟩
          intro j hj
          cases j with
          | zero => simpa using hv
          | succ j => simpa [Nat.add_assoc, Nat.add_comm 1 j] using hr j (by simpa using hj)
    · rintro ⟨hl, hr⟩
      cases vs with
      | nil => simp at hl
      | cons v ws =>
        have h0 := hr 0 (by simp)
        have hrest : s.readRange (i + 1) k = .ok ws := by
          refine ih.mpr ⟨by simpa using hl, ?_⟩
          intro j hj
          have := hr (j + 1) (by simpa using hj)
          simpa [Nat.add_assoc, Nat.add_comm 1 j] using this
        simp only [Nat.add_zero, List.getElem_cons_zero] at h0
        rw [h0]
        simp only [hrest]

/-! ### `BufClear` and `BufAppend` -/

/-- `BufClear()` empties the text, terminates it, and writes no other byte (R62). -/
theorem bufClear_reads {s : State} (hb : s.buf.wf = true) (j : Nat) :
    bufferRead s.bufClear.buf j = if j = 0 then some 0x00 else bufferRead s.buf j :=
  bufferRead_write hb 0 j 0x00

@[simp] theorem bufClear_len (s : State) : s.bufClear.len = 0 := rfl

theorem bufClear_wf {s : State} (hb : s.buf.wf = true) : s.bufClear.buf.wf = true := bufferWrite_wf _ _ hb

/-- Everything `BufAppend` can do: append, with or without a terminator, or drop the byte (R63, R64). -/
theorem bufAppend_cases (s : State) (v : Byte) (term : Bool) :
    (s.len.toNat < s.cfg.cap - 1 ∧ s.bufAppend v term = s.setBuffer
      (if term then bufferWrite (bufferWrite s.buf s.len.toNat v) (s.len.toNat + 1) 0x00
        else bufferWrite s.buf s.len.toNat v) (s.len + 1)) ∨
    (s.cfg.cap - 1 ≤ s.len.toNat ∧ s.bufAppend v term = s) := by
  unfold State.bufAppend
  split
  · exact .inl ⟨by assumption, rfl⟩
  · exact .inr ⟨by omega, rfl⟩

/-- `CAP` is 16 to 256 (R7). -/
theorem cap_bounds (c : Config) : 16 ≤ c.cap ∧ c.cap ≤ 256 := by
  have := c.capExtra.isLt
  unfold Config.cap
  omega

/-- `T_SHORT < T_LONG < T_BIT` in every build (R7). -/
theorem pulse_ordered (c : Config) : c.pulse.short < c.pulse.long ∧ c.pulse.long < c.pulse.bit := by
  unfold PulseTimes.bit PulseTimes.long
  omega

/-- Where there is room, the length cursor counts one more and does not wrap (R63). -/
theorem len_succ {s : State} (h : s.len.toNat < s.cfg.cap - 1) : (s.len + 1).toNat = s.len.toNat + 1 := by
  have := cap_bounds s.cfg
  rw [BitVec.toNat_add]
  change (s.len.toNat + 1) % 256 = s.len.toNat + 1
  omega

theorem bufAppend_wf {s : State} (v : Byte) (term : Bool) (hb : s.buf.wf = true) :
    (s.bufAppend v term).buf.wf = true := by
  rcases bufAppend_cases s v term with ⟨-, h⟩ | ⟨-, h⟩ <;> rw [h]
  · cases term
    · exact bufferWrite_wf _ _ hb
    · exact bufferWrite_wf _ _ (bufferWrite_wf _ _ hb)
  · exact hb

end Sys2Proof.Machine
end

