-- ==== Sys2Proof/Laws/Exec.lean ====
section
/-! SUPPORT. What each level's shared operation can do: sequencing, the unpacker, the strip commands, the
commands, the bytes, the transmitter, the events. Each says once what the operation answers. -/
namespace Sys2Proof.Machine

/-! ### Sequencing -/

theorem andThen_eq_next {o : Result} {k : State → Result} {t : State} :
    andThen o k = .next t ↔ ∃ s, o = .next s ∧ k s = .next t := by
  cases o <;> simp [andThen]

@[simp] theorem andThen_next (s : State) (k : State → Result) : andThen (.next s) k = k s := rfl

@[simp] theorem execAll_nil (s : State) : execAll [] s = .next s := rfl

@[simp] theorem execAll_cons (i : Instr) (is : List Instr) (s : State) :
    execAll (i :: is) s = andThen (exec i s) (execAll is) := rfl

theorem execAll_append (is js : List Instr) (s : State) :
    execAll (is ++ js) s = andThen (execAll is s) (execAll js) := by
  induction is generalizing s with
  | nil => rfl
  | cons i is ih =>
    simp only [List.cons_append, execAll_cons]
    cases exec i s <;> simp [andThen, ih]

/-! ### What the main line leaves alone -/

/-- What a byte can change at most: it touches no transmitter register, no snapshot, no live colour and no
strip output, never disarms the watchdog, and keeps the buffer in canonical form (R23, R40, R130). -/
structure ByteFrame (s t : State) : Prop where
  cfg : t.cfg = s.cfg
  txBusy : t.txBusy = s.txBusy
  txPos : t.txPos = s.txPos
  txBits : t.txBits = s.txBits
  txSr : t.txSr = s.txSr
  inputs : t.inputs = s.inputs
  choice : t.choice = s.choice
  stripOut : t.stripOut = s.stripOut
  armed : s.wdtArmed = true → t.wdtArmed = true
  bufWf : s.buf.wf = true → t.buf.wf = true
  leds : Retargeted s.cfg s.leds t.leds

theorem ByteFrame.refl (s : State) : ByteFrame s s :=
  ⟨rfl, rfl, rfl, rfl, rfl, rfl, rfl, rfl, id, id, Retargeted.refl _ _⟩

theorem ByteFrame.trans {s t u : State} (h : ByteFrame s t) (h' : ByteFrame t u) : ByteFrame s u where
  cfg := h'.cfg.trans h.cfg
  txBusy := h'.txBusy.trans h.txBusy
  txPos := h'.txPos.trans h.txPos
  txBits := h'.txBits.trans h.txBits
  txSr := h'.txSr.trans h.txSr
  inputs := h'.inputs.trans h.inputs
  choice := h'.choice.trans h.choice
  stripOut := h'.stripOut.trans h.stripOut
  armed := h'.armed ∘ h.armed
  bufWf := h'.bufWf ∘ h.bufWf
  leds := h.leds.trans (h.cfg ▸ h'.leds)

/-- An update of fields that the frame does not mention. -/
theorem ByteFrame.of_same {s t : State} (hc : t.cfg = s.cfg) (h1 : t.txBusy = s.txBusy) (h2 : t.txPos = s.txPos)
    (h3 : t.txBits = s.txBits) (h4 : t.txSr = s.txSr) (h5 : t.inputs = s.inputs) (h6 : t.choice = s.choice)
    (h7 : t.stripOut = s.stripOut) (h8 : s.wdtArmed = true → t.wdtArmed = true)
    (h9 : s.buf.wf = true → t.buf.wf = true) (h10 : t.leds = s.leds) : ByteFrame s t :=
  ⟨hc, h1, h2, h3, h4, h5, h6, h7, h8, h9, h10 ▸ Retargeted.refl _ _⟩

theorem setPs_frame (s : State) (p : ParserState) : ByteFrame s (s.setPs p) :=
  .of_same rfl rfl rfl rfl rfl rfl rfl rfl id id rfl

theorem emit_frame (s : State) (r : List Byte) : ByteFrame s (s.emit r) :=
  .of_same rfl rfl rfl rfl rfl rfl rfl rfl id id rfl

theorem setIdx_frame (s : State) (i : BitVec 8) : ByteFrame s (s.setIdx i) :=
  .of_same rfl rfl rfl rfl rfl rfl rfl rfl id id rfl

theorem setNibble_frame (s : State) (h : Bool) (m : BitVec 4) : ByteFrame s (s.setNibble h m) :=
  .of_same rfl rfl rfl rfl rfl rfl rfl rfl id id rfl

theorem stage_frame (s : State) (c : Colour) : ByteFrame s (s.stage c) :=
  .of_same rfl rfl rfl rfl rfl rfl rfl rfl id id rfl

theorem armWatchdog_frame (s : State) : ByteFrame s s.armWatchdog :=
  .of_same rfl rfl rfl rfl rfl rfl rfl rfl (fun _ => rfl) id rfl

theorem bufClear_frame (s : State) : ByteFrame s s.bufClear :=
  .of_same rfl rfl rfl rfl rfl rfl rfl rfl id bufClear_wf rfl

theorem setBuffer_frame (s : State) {b : Buffer} (n : BitVec 8) (h : s.buf.wf = true → b.wf = true) :
    ByteFrame s (s.setBuffer b n) :=
  .of_same rfl rfl rfl rfl rfl rfl rfl rfl id h rfl

theorem bufAppend_frame (s : State) (v : Byte) (term : Bool) : ByteFrame s (s.bufAppend v term) := by
  rcases bufAppend_cases s v term with ⟨-, h⟩ | ⟨-, h⟩
  · have hw := bufAppend_wf (s := s) v term
    rw [h] at hw ⊢
    exact setBuffer_frame s _ hw
  · rw [h]
    exact .refl s

theorem setTarget_frame (s : State) (i : Byte) (c : Colour) : ByteFrame s (s.setTarget i c) :=
  ⟨rfl, rfl, rfl, rfl, rfl, rfl, rfl, rfl, id, id, retargetLeds_retargeted _ _ _ _⟩

theorem shiftTargets_frame (s : State) : ByteFrame s s.shiftTargets :=
  ⟨rfl, rfl, rfl, rfl, rfl, rfl, rfl, rfl, id, id, shiftLoop_retargeted _ _ _⟩

theorem feedNibble_frame (s : State) (n : BitVec 4) : ByteFrame s (s.feedNibble n) := by
  unfold State.feedNibble
  split
  · exact (bufAppend_frame _ _ _).trans (setNibble_frame _ _ _)
  · exact setNibble_frame _ _ _

/-! ### The hex-nibble unpacker -/

/-- The sixteen HEX rows with their nibbles (R175, R178). -/
def hexNibbles : List (Instr × BitVec 4) :=
  [(.hexDigit0, 0), (.hexDigit1, 1), (.hexDigit2, 2), (.hexDigit3, 3), (.hexDigit4, 4), (.hexDigit5, 5),
   (.hexDigit6, 6), (.hexDigit7, 7), (.hexDigit8, 8), (.hexDigit9, 9), (.hexLetterA, 10), (.hexLetterB, 11),
   (.hexLetterC, 12), (.hexLetterD, 13), (.hexLetterE, 14), (.hexLetterF, 15)]

/-- Each of the sixteen rows feeds its own nibble (R171). -/
theorem runHexRow_nibble {p : Instr × BitVec 4} (h : p ∈ hexNibbles) (s : State) :
    runHexRow p.1 s = .next (s.feedNibble p.2) := by
  fin_cases h <;> rfl

/-- Each row of the table stands for the nibble R96 gives its character. -/
theorem hexRow_cases : ∀ b : Byte, hexRow b = .hexOther b ∨ (hexRow b, nib b) ∈ hexNibbles := by decide

/-- `HexChar(b)` feeds the nibble of `b`, whatever row `b` selects (R171). -/
theorem hexChar_eq (b : Byte) (s : State) : hexChar b s = .next (s.feedNibble (nib b)) := by
  unfold hexChar
  rcases hexRow_cases b with h | h
  · rw [h]; rfl
  · exact runHexRow_nibble h s

/-- The row a character selects is run as that row's own meaning. -/
theorem runHexRow_exec {i : Instr} (h : i.format = .hex) (s : State) : runHexRow i s = exec i s := by
  cases i <;> first | rfl | cases h

theorem hexRow_format : ∀ b : Byte, (hexRow b).format = .hex := by decide

/-! ### Strip commands -/

theorem stripRow_format : ∀ ch : Septet, (stripRow ch).format = .strip := by decide

/-- What a strip command can change: the scratch slot, the targets, the running index (R202). -/
structure StripFrame (s t : State) : Prop where
  same : t = { s with scratch := t.scratch, leds := t.leds, idx := t.idx }
  leds : Retargeted s.cfg s.leds t.leds

theorem StripFrame.refl (s : State) : StripFrame s s := ⟨rfl, Retargeted.refl _ _⟩

theorem StripFrame.cfg {s t : State} (h : StripFrame s t) : t.cfg = s.cfg := by rw [h.same]

theorem StripFrame.trans {s t u : State} (h : StripFrame s t) (h' : StripFrame t u) : StripFrame s u := by
  refine ⟨?_, h.leds.trans (h.cfg ▸ h'.leds)⟩
  have h1 := h'.same
  rw [h.same] at h1
  exact h1

theorem StripFrame.byteFrame {s t : State} (h : StripFrame s t) : ByteFrame s t := by
  have hl := h.leds
  rw [h.same]
  exact ⟨rfl, rfl, rfl, rfl, rfl, rfl, rfl, rfl, id, id, hl⟩

theorem advance_stripFrame (s : State) : StripFrame s s.advance := ⟨rfl, Retargeted.refl _ _⟩

theorem paint_stripFrame (s : State) (c : Colour) : StripFrame s (s.paint c) :=
  ⟨rfl, retargetLeds_retargeted _ _ _ _⟩

/-- Every strip command runs, and changes no more than R202 says. -/
theorem runStripRow_next {i : Instr} (h : i.format = .strip) (s : State) :
    ∃ t, runStripRow i s = .next t ∧ StripFrame s t := by
  cases i <;> first
    | (cases h; done)
    | exact ⟨_, rfl, paint_stripFrame _ _⟩
    | exact ⟨_, rfl, advance_stripFrame _⟩
    | exact ⟨_, rfl, ⟨rfl, shiftLoop_retargeted _ _ _⟩⟩
    | exact ⟨_, rfl, ⟨rfl, retargetLeds_retargeted s.cfg 0 (grayColour s.cfg 0) s.leds⟩⟩

theorem runStripRow_exec {i : Instr} (h : i.format = .strip) (s : State) : runStripRow i s = exec i s := by
  cases i <;> first | rfl | cases h

/-- A text of strip commands runs to its end (R185). -/
theorem runStrip_next (text : List Septet) (s : State) : ∃ t, runStrip text s = .next t ∧ StripFrame s t := by
  induction text generalizing s with
  | nil => exact ⟨s, rfl, .refl s⟩
  | cons ch rest ih =>
    obtain ⟨t, ht, hf⟩ := runStripRow_next (stripRow_format ch) s
    obtain ⟨u, hu, hf'⟩ := ih t
    exact ⟨u, by simp [runStrip, ht, hu], hf.trans hf'⟩

/-- A text is run character by character, each as the instruction its character selects. -/
theorem runStrip_execAll (text : List Septet) (s : State) : runStrip text s = execAll (text.map stripRow) s := by
  induction text generalizing s with
  | nil => rfl
  | cons ch rest ih =>
    simp only [runStrip, List.map_cons, execAll_cons, runStripRow_exec (stripRow_format ch)]
    congr 1
    funext u
    exact ih u

/-- The interpreter faults where the message cannot be read, and otherwise runs its characters (R185). -/
theorem runInterpreter_ok {s : State} {chars : List Septet} (h : s.messageChars = .ok chars) :
    ∃ t, runStrip chars (s.setIdx 1) = .next t ∧ StripFrame (s.setIdx 1) t ∧
      runInterpreter s = .next (t.setIdx 1) := by
  obtain ⟨t, ht, hf⟩ := runStrip_next chars (s.setIdx 1)
  refine ⟨t, ht, hf, ?_⟩
  unfold runInterpreter
  rw [h]
  exact congrArg (andThen · fun t => .next (t.setIdx 1)) ht

theorem runInterpreter_eq_next {s u : State} (h : runInterpreter s = .next u) :
    ∃ chars t, s.messageChars = .ok chars ∧ runStrip chars (s.setIdx 1) = .next t ∧
      StripFrame (s.setIdx 1) t ∧ u = t.setIdx 1 := by
  unfold runInterpreter at h
  split at h
  · cases h
  · rename_i chars hc
    obtain ⟨t, ht, hf, -⟩ := runInterpreter_ok hc
    refine ⟨chars, t, hc, ht, hf, ?_⟩
    simp only [ht, andThen_next] at h
    exact ((Host.Outcome.next.injEq _ _).mp h).symm

theorem runInterpreter_frame {s u : State} (h : runInterpreter s = .next u) : ByteFrame s u := by
  obtain ⟨chars, t, -, -, hf, rfl⟩ := runInterpreter_eq_next h
  exact (setIdx_frame s 1).trans (hf.byteFrame.trans (setIdx_frame t 1))

/-! ### Commands -/

/-- The dispatch list selects one of the four command rows. -/
theorem cmdRow_cases {z : Z9Match} {text : List Byte} {i : Instr} (h : cmdRow z text = some i) :
    i = .cmgs ∨ i = .cpin ∨ i = .z9 ∨ i = .otherCmd := by
  unfold cmdRow at h
  split at h
  · cases h
  · simp_all
  · split at h
    · cases h
    · simp_all
    · split at h <;> simp_all

theorem runCmdRow_exec {i : Instr} (h : i.format = .cmd) (s : State) : runCmdRow i s = exec i s := by
  cases i <;> first | rfl | cases h

/-- Everything a dispatch can answer with a next state (R137). -/
theorem dispatch_eq_next {s t : State} (h : dispatch s = .next t) :
    ∃ i, cmdRow s.cfg.z9Match s.commandText = some i ∧ exec i s = .next t ∧
      (i = .cmgs ∨ i = .cpin ∨ i = .z9 ∨ i = .otherCmd) := by
  unfold dispatch at h
  split at h
  · rename_i i hi
    refine ⟨i, hi, ?_, cmdRow_cases hi⟩
    rcases cmdRow_cases hi with rfl | rfl | rfl | rfl <;> exact h
  · cases h

theorem dispatch_frame {s t : State} (h : dispatch s = .next t) : ByteFrame s t := by
  obtain ⟨i, -, ht, rfl | rfl | rfl | rfl⟩ := dispatch_eq_next h <;> cases ht
  · exact (emit_frame _ _).trans ((bufClear_frame _).trans ((setNibble_frame _ _ _).trans (setPs_frame _ _)))
  · exact (emit_frame _ _).trans ((emit_frame _ _).trans (setPs_frame _ _))
  · exact (armWatchdog_frame _).trans ((emit_frame _ _).trans (setPs_frame _ _))
  · exact (emit_frame _ _).trans (setPs_frame _ _)

/-! ### Bytes -/

/-- The row a byte selects is a BYTE row, with an operand that row admits (R92). -/
theorem byteRow_format (ps : ParserState) : ∀ b : Byte, (byteRow ps b).format = .byte ∧ (byteRow ps b).wf = true := by
  cases ps <;> decide

theorem runByteRow_exec {i : Instr} (h : i.format = .byte) (s : State) : runByteRow i s = exec i s := by
  cases i <;> first | rfl | cases h

/-- What any byte row can change at most. -/
theorem runByteRow_frame {i : Instr} {s t : State} (h : runByteRow i s = .next t) : ByteFrame s t := by
  cases i <;> simp only [runByteRow] at h <;> first
    | cases h; done
    | (cases h; exact setPs_frame _ _)
    | (cases h; exact (emit_frame _ _).trans (setPs_frame _ _))
    | (cases h; exact (bufClear_frame _).trans (setPs_frame _ _))
    | (cases h; exact (bufAppend_frame _ _ _).trans (setPs_frame _ _))
    | exact (emit_frame _ _).trans (dispatch_frame h)
    | (simp only [execCmCr, hexChar_eq, andThen_next] at h
       cases h
       exact (emit_frame _ _).trans ((feedNibble_frame _ _).trans (setPs_frame _ _)))
    | (simp only [execCmOther, hexChar_eq, andThen_next] at h
       cases h
       exact (feedNibble_frame _ _).trans (setPs_frame _ _))
    | (obtain ⟨u, hu, ht⟩ := andThen_eq_next.mp h
       cases ht
       exact (runInterpreter_frame hu).trans ((emit_frame _ _).trans (setPs_frame _ _)))

/-! ### The transmitter -/

/-- Everything the trigger can do (R252, R260). -/
theorem trigger_cases (s : State) :
    (s.txBusy = true ∧ s.trigger = s) ∨
    (s.txBusy = false ∧ s.trigger = (s.setLeds (s.leds.map Led.capture)).setTx true 0 0 s.txSr) := by
  unfold State.trigger
  cases h : s.txBusy <;> simp

/-- Everything an `SCLK` step can answer with a next state (R254, R261). -/
theorem pulseStep_eq_next {s t : State} (h : pulseStep s = .next t) :
    (s.txBusy = false ∧ t = s) ∨
    (s.txBusy = true ∧ s.txBits = 0 ∧ ∃ v, s.snapByte s.txPos.toNat = some v ∧ t = s.shiftOut (s.txPos + 1) 8 v) ∨
    (s.txBusy = true ∧ s.txBits ≠ 0 ∧ t = s.shiftOut s.txPos s.txBits s.txSr) := by
  unfold pulseStep at h
  split at h
  · rename_i hb
    split at h
    · rename_i hz
      split at h
      · rename_i v hv
        cases h
        exact .inr (.inl ⟨hb, hz, v, hv, rfl⟩)
      · cases h
    · rename_i hz
      cases h
      exact .inr (.inr ⟨hb, hz, rfl⟩)
  · rename_i hb
    cases h
    exact .inl ⟨by simpa using hb, rfl⟩

/-- The snapshot byte at a place inside the frame exists (R74). -/
theorem snapByte_inside {s : State} {j : Nat} (hl : s.leds.length = s.n) (hj : j < 3 * s.n) :
    ∃ v, s.snapByte j = some v := by
  have hlt : j / 3 < s.leds.length := by omega
  refine ⟨(s.leds[j / 3]).snap.get (Fin.ofNat 3 (j % 3)), ?_⟩
  unfold State.snapByte State.led
  rw [Nat.add_comm 1 (j / 3)]
  simp [hlt]

/-! ### All instructions -/

/-- Every instruction but the events of the tick, the serial clock and reset changes at most what a byte
can (R23, R40). -/
theorem exec_frame {i : Instr} {s t : State} (h : exec i s = .next t) :
    ByteFrame s t ∨ i = .tick ∨ i = .timerTick ∨ i = .reset ∨ i = .sclk := by
  cases hf : i.format
  · rw [← runByteRow_exec hf] at h
    exact .inl (runByteRow_frame h)
  · left
    cases i <;> first
      | (cases hf; done)
      | cases h
    · exact (emit_frame _ _).trans ((bufClear_frame _).trans ((setNibble_frame _ _ _).trans (setPs_frame _ _)))
    · exact (emit_frame _ _).trans ((emit_frame _ _).trans (setPs_frame _ _))
    · exact (armWatchdog_frame _).trans ((emit_frame _ _).trans (setPs_frame _ _))
    · exact (emit_frame _ _).trans (setPs_frame _ _)
  · left
    cases i <;> first
      | (cases hf; done)
      | (cases h; exact feedNibble_frame _ _)
  · obtain ⟨u, hu, hs⟩ := runStripRow_next hf s
    rw [runStripRow_exec hf, h] at hu
    cases hu
    exact .inl hs.byteFrame
  · cases i <;> first
      | (cases hf; done)
      | (right; simp; done)
      | (cases h; exact .inl (setTarget_frame _ _ _))
      | (cases h; exact .inl (shiftTargets_frame _))
  · cases i <;> first
      | (cases hf; done)
      | (right; simp; done)
      | exact .inl (runByteRow_frame (i := byteRow s.ps _) h)

/-! ### Events -/

/-- Everything that taking an event can answer (R283). -/
theorem takeEvent_cases (s : State) :
    ∃ q k, (takeEvent s).2 = s.setInputs q k ∧ s.choice ≤ k := by
  unfold takeEvent
  have tie := Nat.le_succ s.choice
  repeat' split
  all_goals exact ⟨_, _, rfl, by first | exact tie | exact le_refl _⟩

/-- Everything a step can answer with a next state: nothing presented, or one event run. -/
theorem step_eq_next {s t : State} (h : step s = .next t) :
    ((takeEvent s).1 = none ∧ t = (takeEvent s).2) ∨
    ∃ e, (takeEvent s).1 = some e ∧ exec e.instr (takeEvent s).2 = .next t := by
  unfold step at h
  split at h
  · rename_i u hu
    cases h
    exact .inl (by simp [hu])
  · rename_i e u hu
    exact .inr ⟨e, by simp [hu], by simpa [hu] using h⟩

end Sys2Proof.Machine
end

