-- ==== Sys2Proof/Laws/Parser.lean ====
section
/-! SUPPORT. The command text as dispatch reads it, and what a stored text selects. -/
namespace Sys2Proof.Machine

/-! ### Readable bytes -/

/-- Where the first `bytes.length` bytes from `i` on can be read, the readable bytes begin with them. -/
theorem readablePrefix_append {s : State} {i k : Nat} {bytes : List Byte}
    (h : ∀ j (hj : j < bytes.length), s.readBuf (i + j) = .ok bytes[j]) :
    s.readablePrefix i k = (bytes ++ s.readablePrefix (i + bytes.length) (k - bytes.length)).take k := by
  induction k generalizing i bytes with
  | zero => simp [State.readablePrefix]
  | succ k ih =>
    cases bytes with
    | nil =>
      have hlen : ∀ m i, (s.readablePrefix i m).length ≤ m := by
        intro m
        induction m with
        | zero => intro i; simp [State.readablePrefix]
        | succ m ihm =>
          intro i
          simp only [State.readablePrefix]
          split
          · simp
          · simpa using ihm _
      simp only [List.nil_append, List.length_nil, Nat.add_zero, Nat.sub_zero]
      exact (List.take_of_length_le (hlen _ _)).symm
    | cons v vs =>
      have h0 := h 0 (by simp)
      simp only [Nat.add_zero, List.getElem_cons_zero] at h0
      have hrest : ∀ j (hj : j < vs.length), s.readBuf (i + 1 + j) = .ok vs[j] := by
        intro j hj
        have := h (j + 1) (by simpa using hj)
        simpa [Nat.add_assoc, Nat.add_comm 1 j] using this
      simp only [State.readablePrefix, h0]
      rw [ih hrest]
      simp [Nat.add_assoc, Nat.add_comm 1 vs.length]

/-- A stored text as dispatch sees it: the text, its terminator, and whatever lies beyond (R65, R66). -/
theorem commandText_of_holdsText {s : State} {text : List Byte} (h : s.HoldsText text) :
    ∃ beyond, s.commandText = (text ++ 0x00 :: beyond).take 6 := by
  refine ⟨s.readablePrefix (0 + (text ++ [0x00]).length) (6 - (text ++ [0x00]).length), ?_⟩
  unfold State.commandText
  rw [readablePrefix_append (bytes := text ++ [0x00])]
  · simp
  · intro j hj
    rw [Nat.zero_add]
    by_cases hj' : j < text.length
    · rw [List.getElem_append_left hj']
      exact h.1.2 j hj'
    · have : j = text.length := by simp at hj; omega
      subst this
      simpa using h.2

/-! ### Comparing -/

/-- A comparison of at most `k` bytes sees the first `k` only. -/
theorem compareText_take {p text : List Byte} {k : Nat} (hk : p.length ≤ k) :
    compareText p (text.take k) = compareText p text := by
  induction p generalizing text k with
  | nil => simp [compareText]
  | cons x xs ih =>
    cases k with
    | zero => simp at hk
    | succ k =>
      cases text with
      | nil => simp [compareText]
      | cons y ys =>
        simp only [List.take_succ_cons, compareText]
        split
        · exact ih (by simpa using hk)
        · rfl

/-- A pattern without a zero byte matches a stored text exactly when it begins the text, and the
terminator always decides the comparison (R141). -/
theorem compareText_terminated {p text beyond : List Byte} (hp : ∀ x ∈ p, x ≠ 0x00) :
    compareText p (text ++ 0x00 :: beyond) = some (decide (p <+: text)) := by
  induction p generalizing text with
  | nil => simp [compareText]
  | cons x xs ih =>
    have hx : x ≠ 0x00 := hp x (by simp)
    cases text with
    | nil =>
      simp only [List.nil_append, compareText, if_neg hx.symm]
      simp
    | cons y ys =>
      simp only [List.cons_append, compareText]
      split
      · rename_i hyx
        subst hyx
        rw [ih (fun z hz => hp z (List.mem_cons_of_mem _ hz))]
        simp
      · rename_i hyx
        simp [Ne.symm hyx]

/-- `Z9` against a stored text, by the two readings of `Z9_MATCH` (R144). -/
theorem compareText_z9 (z : Z9Match) (text beyond : List Byte) :
    compareText (textZ9 z) (text ++ 0x00 :: beyond) = some
      (match z with
        | .exactText => decide (text = [0x5A, 0x39] ∨ [0x5A, 0x39, 0x00] <+: text)
        | .startOfText => decide ([0x5A, 0x39] <+: text)) := by
  cases z with
  | startOfText => exact compareText_terminated (by decide)
  | exactText =>
    match text with
    | [] => simp [textZ9, compareText]
    | [a] =>
      simp only [textZ9, List.cons_append, List.nil_append, compareText]
      split <;> simp_all
    | [a, b] =>
      simp only [textZ9, List.cons_append, List.nil_append, compareText]
      split
      · split <;> simp_all
      · simp_all
    | a :: b :: c :: rest =>
      simp only [textZ9, List.cons_append, compareText, eq_comm (a := a), eq_comm (a := b), eq_comm (a := c)]
      split
      · split
        · split <;> simp_all
        · rename_i h1 h2
          simp only [List.cons_prefix_cons, List.cons.injEq]
          simp_all
      · rename_i h1
        simp only [List.cons_prefix_cons, List.cons.injEq]
        simp_all

/-- A stored text selects the command that R94 gives it, whatever lies beyond its terminator. -/
theorem cmdRow_of_holdsText {s : State} {text : List Byte} (h : s.HoldsText text) (z : Z9Match) :
    cmdRow z s.commandText = some (commandOf z text) := by
  obtain ⟨beyond, hb⟩ := commandText_of_holdsText h
  have hz : (textZ9 z).length ≤ 6 := by cases z <;> decide
  unfold cmdRow commandOf
  rw [hb, compareText_take (by decide), compareText_take (by decide), compareText_take hz,
    compareText_terminated (by decide), compareText_terminated (by decide), compareText_z9]
  by_cases h1 : textCmgs <+: text
  · simp only [h1, decide_true, if_true]
  · by_cases h2 : textCpin <+: text
    · simp only [h1, h2, decide_true, decide_false, if_true, if_false]
    · cases z with
      | exactText =>
        by_cases h3 : text = [0x5A, 0x39] ∨ [0x5A, 0x39, 0x00] <+: text <;>
          simp only [h1, h2, h3, decide_true, decide_false, if_true, if_false]
      | startOfText =>
        by_cases h3 : [0x5A, 0x39] <+: text <;>
          simp only [h1, h2, h3, decide_true, decide_false, if_true, if_false]

/-- The command a text selects has a CMD row. -/
theorem commandOf_format (z : Z9Match) (text : List Byte) : (commandOf z text).format = .cmd := by
  unfold commandOf
  split
  · rfl
  · split
    · rfl
    · cases z <;> dsimp only <;> split <;> rfl

end Sys2Proof.Machine
end

