-- ==== Sys2Proof/Laws/Lines.lean ====
section
/-! SUPPORT. Runs of text bytes and of message characters, and what they leave in the buffer. -/
namespace Sys2Proof.Machine

/-! ### One byte -/

theorem byteIn_exec (b : Byte) (s : State) : exec (.byteIn b) s = exec (byteRow s.ps b) s :=
  runByteRow_exec (byteRow_format _ _).1 _

theorem hexRow_exec (b : Byte) (s : State) : exec (hexRow b) s = .next (s.feedNibble (nib b)) := by
  rw [← runHexRow_exec (hexRow_format b)]
  exact hexChar_eq b s

theorem byteRow_collectingCommand : ∀ b : Byte, b ≠ 0x0D → b ≠ 0x1B → byteRow .collectingCommand b = .ccOther b := by
  decide

theorem byteRow_collectingMessage : ∀ b : Byte, b ≠ 0x0D → b ≠ 0x1A → b ≠ 0x1B →
    byteRow .collectingMessage b = .cmOther b := by
  decide

/-! ### What the buffer holds -/

theorem holds_congr {s t : State} {bytes : List Byte} (hc : t.cfg = s.cfg) (hb : t.buf = s.buf) (hl : t.len = s.len)
    (h : s.Holds bytes) : t.Holds bytes :=
  ⟨by rw [hl]; exact h.1, fun i hi => (readBuf_congr hc (by rw [hb])).trans (h.2 i hi)⟩

theorem holds_bufClear {s : State} : s.bufClear.Holds [] := ⟨rfl, fun i hi => absurd hi (Nat.not_lt_zero i)⟩

theorem holdsText_bufClear {s : State} (hb : s.buf.wf = true) : s.bufClear.HoldsText [] := by
  refine ⟨holds_bufClear, readBuf_eq_ok.mpr ⟨?_, ?_⟩⟩
  · have := cap_bounds s.cfg
    change 0 < s.cfg.cap
    omega
  · rw [bufClear_reads hb]; rfl

/-- An append where there is room adds its byte to what the buffer holds, and its terminator (R63). -/
theorem holds_bufAppend {s : State} {bytes : List Byte} (hb : s.buf.wf = true) (h : s.Holds bytes)
    (hroom : bytes.length < s.cfg.cap - 1) (v : Byte) (term : Bool) :
    (s.bufAppend v term).Holds (bytes ++ [v]) ∧ (term = true → (s.bufAppend v term).HoldsText (bytes ++ [v])) := by
  have hlen := h.1
  have hcap := cap_bounds s.cfg
  rcases bufAppend_cases s v term with ⟨h1, h2⟩ | ⟨h1, -⟩
  · have hread : ∀ i, i ≤ s.len.toNat → bufferRead (s.bufAppend v term).buf i
        = if i = s.len.toNat then some v else bufferRead s.buf i := by
      intro i hi
      rw [h2]
      cases term
      · exact bufferRead_write hb _ _ _
      · change bufferRead (bufferWrite (bufferWrite _ _ _) _ _) _ = _
        rw [bufferRead_write_other (by omega)]
        exact bufferRead_write hb _ _ _
    have hcfg : (s.bufAppend v term).cfg = s.cfg := by rw [h2]; rfl
    have hholds : (s.bufAppend v term).Holds (bytes ++ [v]) := by
      refine ⟨?_, ?_⟩
      · rw [h2]
        change (s.len + 1).toNat = _
        rw [len_succ h1, hlen]
        simp
      · intro i hi
        simp only [List.length_append, List.length_cons, List.length_nil] at hi
        rw [readBuf_eq_ok, hcfg, hread i (by omega)]
        refine ⟨by omega, ?_⟩
        by_cases hi' : i < bytes.length
        · rw [if_neg (by omega), List.getElem_append_left hi']
          exact (readBuf_eq_ok.mp (h.2 i hi')).2
        · have : i = bytes.length := by omega
          subst this
          rw [if_pos hlen.symm]
          simp
    refine ⟨hholds, ?_⟩
    rintro rfl
    refine ⟨hholds, readBuf_eq_ok.mpr ⟨?_, ?_⟩⟩
    · simp only [hcfg, List.length_append, List.length_cons, List.length_nil]
      omega
    · rw [h2]
      change bufferRead (bufferWrite (bufferWrite _ _ _) _ _) _ = _
      rw [show (bytes ++ [v]).length = s.len.toNat + 1 by rw [hlen]; simp,
        bufferRead_write_same (bufferWrite_wf _ _ hb)]
  · omega

/-- An append where there is no room changes nothing (R64). -/
theorem bufAppend_full {s : State} (h : s.cfg.cap - 1 ≤ s.len.toNat) (v : Byte) (term : Bool) :
    s.bufAppend v term = s := by
  rcases bufAppend_cases s v term with ⟨h1, -⟩ | ⟨-, h2⟩
  · omega
  · exact h2

theorem bufAppend_same (s : State) (v : Byte) (term : Bool) :
    s.bufAppend v term = { s with buf := (s.bufAppend v term).buf, len := (s.bufAppend v term).len } := by
  rcases bufAppend_cases s v term with ⟨-, h⟩ | ⟨-, h⟩
  · rw [h]; rfl
  · rw [h]

/-! ### A command text -/

/-- A run of text bytes that fits is stored after what is there, terminated (R65, R138). -/
theorem execAll_text {s : State} {before text : List Byte} (hps : s.ps = .collectingCommand) (hb : s.buf.wf = true)
    (h : s.HoldsText before) (hplain : ∀ b ∈ text, b ≠ 0x0D ∧ b ≠ 0x1B)
    (hroom : before.length + text.length ≤ s.cfg.cap - 1) :
    ∃ t, execAll (byteEvents text) s = .next t ∧ t = { s with buf := t.buf, len := t.len } ∧
      t.buf.wf = true ∧ t.HoldsText (before ++ text) := by
  induction text generalizing s before with
  | nil => exact ⟨s, rfl, rfl, hb, by simpa using h⟩
  | cons b rest ih =>
    obtain ⟨hcr, hesc⟩ := hplain b (by simp)
    simp only [List.length_cons] at hroom
    have hstep : exec (.byteIn b) s = .next ((s.bufAppend b true).setPs .collectingCommand) := by
      rw [byteIn_exec, hps, byteRow_collectingCommand b hcr hesc]
      rfl
    have hsame := bufAppend_same s b true
    have happ := (holds_bufAppend hb h.1 (by omega) b true).2 rfl
    have heq : (s.bufAppend b true).setPs .collectingCommand = s.bufAppend b true := by
      rw [hsame]
      simp only [State.setPs, hps]
    rw [heq] at hstep
    have hcfg : (s.bufAppend b true).cfg = s.cfg := by rw [hsame]
    have hps' : (s.bufAppend b true).ps = .collectingCommand := by rw [hsame]; exact hps
    obtain ⟨t, ht, hts, htw, hth⟩ := ih hps' (bufAppend_wf b true hb) happ
      (fun x hx => hplain x (List.mem_cons_of_mem _ hx)) (by rw [hcfg]; simp; omega)
    refine ⟨t, ?_, ?_, htw, by simpa using hth⟩
    · change execAll (.byteIn b :: byteEvents rest) s = _
      rw [execAll_cons, hstep, andThen_next, ht]
    · rw [hsame] at hts
      exact hts

/-! ### The characters of a message -/

/-- The bytes that the characters of a message make, two at a time; an odd last one makes none (R67, R181). -/
def pairBytes : List Byte → List Byte
  | hi :: lo :: rest => pairByte (nib hi) (nib lo) :: pairBytes rest
  | _ => []

theorem pairBytes_length (chars : List Byte) : (pairBytes chars).length = chars.length / 2 := by
  induction chars using pairBytes.induct with
  | case1 hi lo rest ih =>
    simp only [pairBytes, List.length_cons, ih]
    omega
  | case2 chars h =>
    match chars, h with
    | [], _ => rfl
    | [a], _ => simp [pairBytes]
    | a :: b :: rest, h => exact absurd rfl (h a b rest)

/-- The byte of pair `p` (R67). -/
theorem pairBytes_getElem? (chars : List Byte) (p : Nat) (hp : p < chars.length / 2) :
    (pairBytes chars)[p]? = some (pairByte (nib (chars.getD (2 * p) 0)) (nib (chars.getD (2 * p + 1) 0))) := by
  induction chars using pairBytes.induct generalizing p with
  | case1 hi lo rest ih =>
    cases p with
    | zero => rfl
    | succ p =>
      have := ih p (by simp only [List.length_cons] at hp; omega)
      simpa [pairBytes, Nat.mul_add] using this
  | case2 chars h =>
    match chars, h with
    | [], _ => simp at hp
    | [a], _ => simp at hp
    | a :: b :: rest, h => exact absurd rfl (h a b rest)

/-- What one character of a message does (R139): its echo, if it is a CR, and its nibble. -/
theorem message_byte {s : State} {c : Byte} (hps : s.ps = .collectingMessage) (hc : c ≠ 0x1A ∧ c ≠ 0x1B) :
    ∃ r, exec (.byteIn c) s = .next ((s.emit r).feedNibble (nib c)) ∧ (c ≠ 0x0D → r = []) := by
  have back : ∀ (r : List Byte) (n : BitVec 4),
      ((s.emit r).feedNibble n).setPs .collectingMessage = (s.emit r).feedNibble n := by
    intro r n
    have hp : ((s.emit r).feedNibble n).ps = .collectingMessage := by
      unfold State.feedNibble
      split
      · rw [State.setNibble_ps, bufAppend_same]; exact hps
      · exact hps
    unfold State.setPs
    rw [← hp]
  by_cases hcr : c = 0x0D
  · subst hcr
    refine ⟨replyEcho, ?_, fun h => absurd rfl h⟩
    rw [byteIn_exec, hps]
    change execCmCr s = _
    unfold execCmCr
    rw [hexChar_eq, andThen_next]
    exact congrArg _ (back _ _)
  · refine ⟨[], ?_, fun _ => rfl⟩
    rw [byteIn_exec, hps, byteRow_collectingMessage c hcr hc.1 hc.2]
    change execCmOther c s = _
    unfold execCmOther
    rw [hexChar_eq, andThen_next]
    have : s.emit [] = s := by simp [State.emit]
    have hb := back [] (nib c)
    rw [this] at hb ⊢
    rw [hb]

/-- A run of message characters from an even place: the bytes of its pairs are stored after what is there, as
many as fit (R181). -/
theorem execAll_chars {s : State} {before chars : List Byte} (hps : s.ps = .collectingMessage)
    (hb : s.buf.wf = true) (heven : s.haveHi = false) (h : s.Holds before) (hfit : before.length ≤ s.cfg.cap - 1)
    (hplain : ∀ c ∈ chars, c ≠ 0x1A ∧ c ≠ 0x1B) :
    ∃ t, execAll (byteEvents chars) s = .next t ∧
      t = { s with buf := t.buf, len := t.len, haveHi := t.haveHi, hiNib := t.hiNib, replyOut := t.replyOut } ∧
      t.buf.wf = true ∧ t.Holds ((before ++ pairBytes chars).take (s.cfg.cap - 1)) ∧
      ((∀ c ∈ chars, c ≠ 0x0D) → t.replyOut = s.replyOut) := by
  induction chars using pairBytes.induct generalizing s before with
  | case1 hi lo rest ih =>
    obtain ⟨r, hr, hr0⟩ := message_byte hps (hplain hi (by simp))
    have hfirst : (s.emit r).feedNibble (nib hi) = (s.emit r).setNibble true (nib hi) := by
      unfold State.feedNibble
      rw [State.emit_haveHi, heven]
      rfl
    rw [hfirst] at hr
    obtain ⟨q, hq, hq0⟩ := message_byte (s := (s.emit r).setNibble true (nib hi)) hps (hplain lo (by simp))
    generalize hu : ((s.emit r).setNibble true (nib hi)).emit q = u at hq
    have husame : u = { s with haveHi := true, hiNib := nib hi, replyOut := s.replyOut ++ r ++ q } := by
      rw [← hu]; rfl
    have hsecond : u.feedNibble (nib lo) = (u.bufAppend (pairByte (nib hi) (nib lo)) false).setNibble false (nib hi) := by
      unfold State.feedNibble
      rw [husame]
      rfl
    rw [hsecond] at hq
    have hub : u.buf.wf = true := by rw [husame]; exact hb
    have huh : u.Holds before := holds_congr (by rw [husame]) (by rw [husame]) (by rw [husame]) h
    have hucfg : u.cfg = s.cfg := by rw [husame]
    have hvsame := bufAppend_same u (pairByte (nib hi) (nib lo)) false
    have hvb := bufAppend_wf (s := u) (pairByte (nib hi) (nib lo)) false hub
    generalize hv : u.bufAppend (pairByte (nib hi) (nib lo)) false = v at *
    have hvcfg : v.cfg = s.cfg := by rw [hvsame]; exact hucfg
    have hvh : v.Holds ((before ++ [pairByte (nib hi) (nib lo)]).take (s.cfg.cap - 1)) := by
      by_cases hroom : before.length < s.cfg.cap - 1
      · have := (holds_bufAppend hub huh (by rw [hucfg]; exact hroom) (pairByte (nib hi) (nib lo)) false).1
        rw [hv] at this
        rwa [List.take_of_length_le (by simp; omega)]
      · have hlen : before.length = s.cfg.cap - 1 := by omega
        have : v = u := by
          rw [← hv]
          exact bufAppend_full (by rw [hucfg, huh.1]; omega) _ _
        rw [this, ← hlen, List.take_left]
        exact huh
    obtain ⟨t, ht, hts, htw, hth, htr⟩ := ih (s := v.setNibble false (nib hi))
      (before := (before ++ [pairByte (nib hi) (nib lo)]).take (s.cfg.cap - 1))
      (by rw [State.setNibble_ps, hvsame, husame]; exact hps) hvb rfl (holds_congr rfl rfl rfl hvh)
      (by rw [State.setNibble_cfg, hvcfg]; exact (List.length_take_le _ _))
      (fun x hx => hplain x (by simp [hx]))
    refine ⟨t, ?_, ?_, htw, ?_, ?_⟩
    · change execAll (.byteIn hi :: .byteIn lo :: byteEvents rest) s = _
      rw [execAll_cons, hr, andThen_next, execAll_cons, hq, andThen_next, ht]
    · rw [hvsame, husame] at hts
      exact hts
    · rw [State.setNibble_cfg, hvcfg] at hth
      have : ((before ++ [pairByte (nib hi) (nib lo)]).take (s.cfg.cap - 1) ++ pairBytes rest).take (s.cfg.cap - 1)
          = (before ++ pairBytes (hi :: lo :: rest)).take (s.cfg.cap - 1) := by
        simp only [pairBytes]
        generalize s.cfg.cap - 1 = m at *
        by_cases hroom : before.length < m
        · rw [List.take_of_length_le (l := before ++ [_]) (by simp; omega)]
          simp
        · have hlen : before.length = m := by omega
          subst hlen
          simp
      rwa [this] at hth
    · intro hno
      rw [htr (fun x hx => hno x (by simp [hx])), State.setNibble_replyOut, hvsame, husame,
        hr0 (hno hi (by simp)), hq0 (hno lo (by simp))]
      simp
  | case2 chars hshort =>
    match chars, hshort with
    | [], _ =>
      exact ⟨s, rfl, rfl, hb, by simpa [pairBytes, List.take_of_length_le hfit] using h, fun _ => rfl⟩
    | [c], _ =>
      obtain ⟨r, hr, hr0⟩ := message_byte hps (hplain c (by simp))
      have hfirst : (s.emit r).feedNibble (nib c) = (s.emit r).setNibble true (nib c) := by
        unfold State.feedNibble
        rw [State.emit_haveHi, heven]
        rfl
      rw [hfirst] at hr
      refine ⟨(s.emit r).setNibble true (nib c), ?_, rfl, hb, ?_, ?_⟩
      · change execAll (.byteIn c :: []) s = _
        rw [execAll_cons, hr, andThen_next, execAll_nil]
      · simp only [pairBytes, List.append_nil, List.take_of_length_le hfit]
        exact holds_congr rfl rfl rfl h
      · intro hno
        rw [hr0 (hno c (by simp))]
        simp
    | a :: b :: rest, hs => exact absurd rfl (hs a b rest)

end Sys2Proof.Machine
end

