-- ==== Sys2Proof/Laws/PerInstr.lean ====
section
/-! SUPPORT. One fact about every instruction of the table: its code arrives at its own level. -/
namespace Sys2Proof.Laws

/-- The level at which a code arrives (R90, R107). -/
def levelOf : Code → Format
  | .event _ => .event
  | .byte _ _ => .byte
  | .cmd _ => .cmd
  | .hex _ => .hex
  | .strip _ => .strip
  | .fade _ => .fade

end Sys2Proof.Laws

/-- The code of the instruction arrives at the level of its row's format (R90, R107). -/
def Sys2Proof.Laws.OwnLevel.Statement (i : Sys2Proof.Instr) : Prop :=
  Sys2Proof.Laws.levelOf (Sys2Proof.encode i) = i.format

namespace Sys2Proof.Laws.OwnLevel

theorem idleEsc : Statement .idleEsc := rfl
theorem idleCr : Statement .idleCr := rfl
theorem idleOther (b : Byte) : Statement (.idleOther b) := rfl
theorem acrEsc : Statement .acrEsc := rfl
theorem acrCr : Statement .acrCr := rfl
theorem acrOther (b : Byte) : Statement (.acrOther b) := rfl
theorem wlfEsc : Statement .wlfEsc := rfl
theorem wlfCr : Statement .wlfCr := rfl
theorem wlfLf : Statement .wlfLf := rfl
theorem wlfOther (b : Byte) : Statement (.wlfOther b) := rfl
theorem expaEsc : Statement .expaEsc := rfl
theorem expaCr : Statement .expaCr := rfl
theorem expaA : Statement .expaA := rfl
theorem expaOther (b : Byte) : Statement (.expaOther b) := rfl
theorem exptEsc : Statement .exptEsc := rfl
theorem exptCr : Statement .exptCr := rfl
theorem exptT : Statement .exptT := rfl
theorem exptOther (b : Byte) : Statement (.exptOther b) := rfl
theorem ccEsc : Statement .ccEsc := rfl
theorem ccCr : Statement .ccCr := rfl
theorem ccOther (b : Byte) : Statement (.ccOther b) := rfl
theorem cmEsc : Statement .cmEsc := rfl
theorem cmCr : Statement .cmCr := rfl
theorem cmSub : Statement .cmSub := rfl
theorem cmOther (b : Byte) : Statement (.cmOther b) := rfl
theorem cmgs : Statement .cmgs := rfl
theorem cpin : Statement .cpin := rfl
theorem z9 : Statement .z9 := rfl
theorem otherCmd : Statement .otherCmd := rfl
theorem hexDigit0 : Statement .hexDigit0 := rfl
theorem hexDigit1 : Statement .hexDigit1 := rfl
theorem hexDigit2 : Statement .hexDigit2 := rfl
theorem hexDigit3 : Statement .hexDigit3 := rfl
theorem hexDigit4 : Statement .hexDigit4 := rfl
theorem hexDigit5 : Statement .hexDigit5 := rfl
theorem hexDigit6 : Statement .hexDigit6 := rfl
theorem hexDigit7 : Statement .hexDigit7 := rfl
theorem hexDigit8 : Statement .hexDigit8 := rfl
theorem hexDigit9 : Statement .hexDigit9 := rfl
theorem hexLetterA : Statement .hexLetterA := rfl
theorem hexLetterB : Statement .hexLetterB := rfl
theorem hexLetterC : Statement .hexLetterC := rfl
theorem hexLetterD : Statement .hexLetterD := rfl
theorem hexLetterE : Statement .hexLetterE := rfl
theorem hexLetterF : Statement .hexLetterF := rfl
theorem hexOther (b : Byte) : Statement (.hexOther b) := rfl
theorem shift : Statement .shift := rfl
theorem rainbow0 : Statement .rainbow0 := rfl
theorem rainbow1 : Statement .rainbow1 := rfl
theorem rainbow2 : Statement .rainbow2 := rfl
theorem rainbow3 : Statement .rainbow3 := rfl
theorem rainbow4 : Statement .rainbow4 := rfl
theorem rainbow5 : Statement .rainbow5 := rfl
theorem rainbow6 : Statement .rainbow6 := rfl
theorem rainbow7 : Statement .rainbow7 := rfl
theorem rainbow8 : Statement .rainbow8 := rfl
theorem rainbow9 : Statement .rainbow9 := rfl
theorem rainbow10 : Statement .rainbow10 := rfl
theorem rainbow11 : Statement .rainbow11 := rfl
theorem rainbow12 : Statement .rainbow12 := rfl
theorem rainbow13 : Statement .rainbow13 := rfl
theorem rainbow14 : Statement .rainbow14 := rfl
theorem rainbow15 : Statement .rainbow15 := rfl
theorem rainbow16 : Statement .rainbow16 := rfl
theorem rainbow17 : Statement .rainbow17 := rfl
theorem rainbow18 : Statement .rainbow18 := rfl
theorem rainbow19 : Statement .rainbow19 := rfl
theorem rainbow20 : Statement .rainbow20 := rfl
theorem rainbow21 : Statement .rainbow21 := rfl
theorem rainbow22 : Statement .rainbow22 := rfl
theorem rainbow23 : Statement .rainbow23 := rfl
theorem rainbow24 : Statement .rainbow24 := rfl
theorem rainbow25 : Statement .rainbow25 := rfl
theorem gray0 : Statement .gray0 := rfl
theorem gray1 : Statement .gray1 := rfl
theorem gray2 : Statement .gray2 := rfl
theorem gray3 : Statement .gray3 := rfl
theorem gray4 : Statement .gray4 := rfl
theorem gray5 : Statement .gray5 := rfl
theorem gray6 : Statement .gray6 := rfl
theorem gray7 : Statement .gray7 := rfl
theorem gray8 : Statement .gray8 := rfl
theorem gray9 : Statement .gray9 := rfl
theorem allOff : Statement .allOff := rfl
theorem skipSpace : Statement .skipSpace := rfl
theorem skipOther (ch : Septet) : Statement (.skipOther ch) := rfl
theorem setTarget (index : Byte) (colour : Colour) : Statement (.setTarget index colour) := rfl
theorem shiftOp : Statement .shiftOp := rfl
theorem tick : Statement .tick := rfl
theorem reset : Statement .reset := rfl
theorem byteIn (b : Byte) : Statement (.byteIn b) := rfl
theorem timerTick : Statement .timerTick := rfl
theorem sclk : Statement .sclk := rfl

end Sys2Proof.Laws.OwnLevel
end

