-- ==== Sys2Proof/Laws/Septets.lean ====
section
/-! SUPPORT. The septets of a message, bit by bit, the packing of a text, and what the interpreter reads. -/
namespace Sys2Proof.Machine

/-! ### Bits -/

/-- Bit `n` of the data, bit 0 of the first byte first (R68). -/
def dataBit (d : List Byte) (n : Nat) : Bool := (dataByte d (n / 8)).getLsbD (n % 8)

/-- Bit `b` of character `i` is bit `7 * i + b` of the data (R68, R99). -/
theorem septetAt_getLsbD (d : List Byte) (i b : Nat) (hb : b < 7) :
    (septetAt d i).getLsbD b = dataBit d (7 * i + b) := by
  unfold septetAt dataBit
  simp only [BitVec.getLsbD_setWidth, BitVec.getLsbD_ushiftRight, BitVec.getLsbD_append, hb, decide_true,
    Bool.true_and]
  have hdm := Nat.div_add_mod (7 * i) 8
  have hr := Nat.mod_lt (7 * i) (show 0 < 8 by norm_num)
  generalize 7 * i / 8 = q at *
  generalize 7 * i % 8 = r at *
  by_cases h : r + b < 8
  · rw [show (7 * i + b) / 8 = q by omega, show (7 * i + b) % 8 = r + b by omega]
    simp [h]
  · rw [show (7 * i + b) / 8 = q + 1 by omega, show (7 * i + b) % 8 = r + b - 8 by omega]
    have h1 : ¬ r ≤ 1 := by omega
    simp [h, h1]

/-- Characters with the same bits are the same. -/
theorem septet_ext {x y : Septet} (h : ∀ b, b < 7 → x.getLsbD b = y.getLsbD b) : x = y :=
  BitVec.eq_of_getLsbD_eq fun b hb => h b hb

/-- The number of a packed text holds character `i` at bit `7 * i` (R121). -/
theorem packedNumber_testBit (text : List Septet) (i b : Nat) (hb : b < 7) :
    (packedNumber text).testBit (7 * i + b) = (text.getD i 0).getLsbD b := by
  induction text generalizing i with
  | nil => simp [packedNumber]
  | cons ch rest ih =>
    have hch : ch.toNat < 2 ^ 7 := ch.isLt
    rw [packedNumber, Nat.add_comm ch.toNat, Nat.testBit_two_pow_mul_add _ hch]
    cases i with
    | zero => simp [hb, BitVec.getLsbD]
    | succ i =>
      rw [if_neg (by omega), show 7 * (i + 1) + b - 7 = 7 * i + b by omega, ih]
      simp

/-- Bit `n` of packed data, inside the data. -/
theorem packSeptets_dataBit (text : List Septet) (n : Nat) (hn : n < 7 * text.length) :
    dataBit (packSeptets text) n = (packedNumber text).testBit n := by
  have hj : n / 8 < (7 * text.length + 7) / 8 := by omega
  have hm := Nat.mod_lt n (show 0 < 8 by norm_num)
  have hbyte : dataByte (packSeptets text) (n / 8) = BitVec.ofNat 8 (packedNumber text / 2 ^ (8 * (n / 8))) := by
    unfold dataByte packSeptets
    simp [List.getD_eq_getElem?_getD, hj]
  unfold dataBit
  rw [hbyte, BitVec.getLsbD_ofNat, Nat.testBit_div_two_pow]
  simp only [hm, decide_true, Bool.true_and]
  rw [show n % 8 + 8 * (n / 8) = n by omega]

@[simp] theorem septets_length (d : List Byte) (count : Nat) : (septets d count).length = septetCount count d.length := by
  simp [septets]

/-! ### Hex text -/

/-- The hex characters of a byte make that byte (R67, R121). -/
theorem pairByte_hexCharOf : ∀ b : Byte,
    pairByte (nib (hexCharOf (b.toNat / 16))) (nib (hexCharOf (b.toNat % 16))) = b := by
  decide

theorem pairBytes_hexText (bytes : List Byte) : pairBytes (hexText bytes) = bytes := by
  induction bytes with
  | nil => rfl
  | cons b rest ih =>
    have h := pairByte_hexCharOf b
    change pairByte _ _ :: pairBytes (hexText rest) = _
    rw [h, ih]

/-- A hex text has no control character in it. -/
theorem hexText_plain {bytes : List Byte} {c : Byte} (h : c ∈ hexText bytes) : c ≠ 0x0D ∧ c ≠ 0x1A ∧ c ≠ 0x1B := by
  have key : ∀ n, n < 16 → hexCharOf n ≠ 0x0D ∧ hexCharOf n ≠ 0x1A ∧ hexCharOf n ≠ 0x1B := by decide
  obtain ⟨b, -, hc⟩ := List.mem_flatMap.mp h
  have := b.isLt
  simp only [List.mem_cons, List.not_mem_nil, or_false] at hc
  rcases hc with rfl | rfl
  · exact key _ (by omega)
  · exact key _ (by omega)

/-! ### What the interpreter reads -/

/-- The characters of a message are those of the payload the buffer holds (R185, R187). -/
theorem messageChars_of_holds {s : State} {payload : List Byte} (h : s.Holds payload) :
    s.messageChars = .ok (payloadChars s.cfg payload) := by
  obtain ⟨hlen, hread⟩ := h
  have get : ∀ i, i < payload.length → s.readBuf i = .ok (payload.getD i 0) := by
    intro i hi
    rw [hread i hi, List.getD_eq_getElem?_getD, List.getElem?_eq_getElem hi]
    rfl
  unfold State.messageChars payloadChars countIndex ceil2
  rw [hlen]
  by_cases h4 : payload.length < 4
  · simp [h4]
  · rw [if_neg h4, get 3 (by omega)]
    dsimp only
    generalize ((payload.getD 3 0).toNat + 1) / 2 + s.cfg.envSkip = udl
    by_cases hu : payload.length ≤ udl
    · simp [h4, hu]
    · rw [if_neg hu, if_neg (by omega), get udl (by omega)]
      have hrange : s.readRange (udl + 1) (payload.length - (udl + 1)) = .ok (payload.drop (udl + 1)) := by
        refine readRange_eq_ok.mpr ⟨by simp, ?_⟩
        intro j hj
        rw [List.length_drop] at hj
        rw [hread _ (by omega), List.getElem_drop]
      rw [hrange]

end Sys2Proof.Machine
end

