-- ==== Sys2Proof/Tests/Slice0.lean ====
section
/-! SUPPORT. Tests: expected values are those of 95_test_vectors.md, of the opcode table, or computed by
hand from the rules; and, for each obligation with hypotheses, a state and operands that meet them. -/
namespace Sys2Proof.Tests
open Sys2Proof Sys2Proof.Machine

/-! ### Small states -/

/-- `CAP = 16`, `FADE_SHIFT = 4`. -/
def tinyConfig (leds : Fin 254) : Config := ⟨0, leds, 4, none, none, 7, .exactText, 50, none, none⟩

/-- After reset, with `leds + 1` LEDs. -/
def tiny (leds : Fin 254) : State := State.resetWith (tinyConfig leds)

/-- One LED, in state `ps`, with bytes in the buffer, `len` of them counted. -/
def holding (ps : ParserState) (bytes : List Byte) (len : BitVec 8) : State :=
  ((tiny 0).setBuffer (bufferLoad [] 0 bytes) len).setPs ps

/-- A text being collected. -/
def collecting (text : List Byte) : State :=
  holding .collectingCommand (text ++ [0x00]) (BitVec.ofNat 8 text.length)

/-- A message being collected, at an even place. -/
def receiving (payload : List Byte) : State := holding .collectingMessage payload (BitVec.ofNat 8 payload.length)

/-- An LED at rest. -/
def resting (a b c : Byte) : Led := { Led.afterReset with cur := ⟨a, b, c⟩, tgt := ⟨a, b, c⟩ }

/-- Five ticks into a fade from off to 255 on every channel (95_test_vectors.md, section 2.6). -/
def fading : Led where
  cur := Chan.fill 79
  tgt := Chan.fill 255
  cnt := 11
  step := Chan.fill 0x0FF0
  frac := Chan.fill 176
  snap := ⟨0x01, 0x02, 0x03⟩

/-- Ten symbols into a frame of one LED (95_test_vectors.md, section 2.7), the text `A` being collected, the
LED in a fade. -/
def busy : State := ((collecting [0x41]).setLeds [fading]).setTx true 2 6 0x08

/-- Whether an outcome is a next state with a property. -/
def gives (o : Result) (p : State → Bool) : Bool :=
  match o with
  | .next t => p t
  | _ => false

/-- Whether an outcome is a next state. -/
def runs (o : Result) : Bool := gives o fun _ => true

/-! ### Well-formedness: a term each check refuses -/

theorem test_wf_idleOther : (Instr.idleOther 0x0D).wf = false := by decide
theorem test_wf_acrOther : (Instr.acrOther 0x1B).wf = false := by decide
theorem test_wf_wlfOther : (Instr.wlfOther 0x0A).wf = false := by decide
theorem test_wf_expaOther : (Instr.expaOther 0x41).wf = false := by decide
theorem test_wf_exptOther : (Instr.exptOther 0x54).wf = false := by decide
theorem test_wf_ccOther : (Instr.ccOther 0x0D).wf = false := by decide
theorem test_wf_cmOther : (Instr.cmOther 0x1A).wf = false := by decide
theorem test_wf_hexOther_digit : (Instr.hexOther 0x39).wf = false := by decide
theorem test_wf_hexOther_letter : (Instr.hexOther 0x46).wf = false := by decide
theorem test_wf_hexOther_control : (Instr.hexOther 0x1A).wf = false ∧ (Instr.hexOther 0x1B).wf = false := by decide
theorem test_wf_skipOther : (Instr.skipOther 0x7A).wf = false ∧ (Instr.skipOther 0x20).wf = false := by decide

/-! ### Decoding: the codes of the opcode table, written out -/

theorem test_decode_byte_idle :
    decode .exactText (.byte 0 0x1B) = .ok .idleEsc ∧
    decode .exactText (.byte 0 0x0D) = .ok .idleCr ∧
    decode .exactText (.byte 0 0x41) = .ok (.idleOther 0x41) := by
  decide

theorem test_decode_byte_acr :
    decode .exactText (.byte 1 0x1B) = .ok .acrEsc ∧
    decode .exactText (.byte 1 0x0D) = .ok .acrCr ∧
    decode .exactText (.byte 1 0x0A) = .ok (.acrOther 0x0A) := by
  decide

theorem test_decode_byte_wlf :
    decode .exactText (.byte 2 0x1B) = .ok .wlfEsc ∧
    decode .exactText (.byte 2 0x0D) = .ok .wlfCr ∧
    decode .exactText (.byte 2 0x0A) = .ok .wlfLf ∧
    decode .exactText (.byte 2 0x0B) = .ok (.wlfOther 0x0B) := by
  decide

theorem test_decode_byte_expa :
    decode .exactText (.byte 3 0x1B) = .ok .expaEsc ∧
    decode .exactText (.byte 3 0x0D) = .ok .expaCr ∧
    decode .exactText (.byte 3 0x41) = .ok .expaA ∧
    decode .exactText (.byte 3 0x61) = .ok (.expaOther 0x61) := by
  decide

theorem test_decode_byte_expt :
    decode .exactText (.byte 4 0x1B) = .ok .exptEsc ∧
    decode .exactText (.byte 4 0x0D) = .ok .exptCr ∧
    decode .exactText (.byte 4 0x54) = .ok .exptT ∧
    decode .exactText (.byte 4 0x41) = .ok (.exptOther 0x41) := by
  decide

theorem test_decode_byte_cc :
    decode .exactText (.byte 5 0x1B) = .ok .ccEsc ∧
    decode .exactText (.byte 5 0x0D) = .ok .ccCr ∧
    decode .exactText (.byte 5 0x1A) = .ok (.ccOther 0x1A) := by
  decide

theorem test_decode_byte_cm :
    decode .exactText (.byte 6 0x1B) = .ok .cmEsc ∧
    decode .exactText (.byte 6 0x0D) = .ok .cmCr ∧
    decode .exactText (.byte 6 0x1A) = .ok .cmSub ∧
    decode .exactText (.byte 6 0x1C) = .ok (.cmOther 0x1C) := by
  decide

theorem test_decode_hex :
    decode .exactText (.hex 0x30) = .ok .hexDigit0 ∧
    decode .exactText (.hex 0x31) = .ok .hexDigit1 ∧
    decode .exactText (.hex 0x32) = .ok .hexDigit2 ∧
    decode .exactText (.hex 0x33) = .ok .hexDigit3 ∧
    decode .exactText (.hex 0x34) = .ok .hexDigit4 ∧
    decode .exactText (.hex 0x35) = .ok .hexDigit5 ∧
    decode .exactText (.hex 0x36) = .ok .hexDigit6 ∧
    decode .exactText (.hex 0x37) = .ok .hexDigit7 ∧
    decode .exactText (.hex 0x38) = .ok .hexDigit8 ∧
    decode .exactText (.hex 0x39) = .ok .hexDigit9 ∧
    decode .exactText (.hex 0x41) = .ok .hexLetterA ∧
    decode .exactText (.hex 0x42) = .ok .hexLetterB ∧
    decode .exactText (.hex 0x43) = .ok .hexLetterC ∧
    decode .exactText (.hex 0x44) = .ok .hexLetterD ∧
    decode .exactText (.hex 0x45) = .ok .hexLetterE ∧
    decode .exactText (.hex 0x46) = .ok .hexLetterF ∧
    decode .exactText (.hex 0x61) = .ok (.hexOther 0x61) := by
  decide

theorem test_decode_strip_rest :
    decode .exactText (.strip 0x3E) = .ok .shift ∧
    decode .exactText (.strip 0x30) = .ok .gray0 ∧
    decode .exactText (.strip 0x31) = .ok .gray1 ∧
    decode .exactText (.strip 0x32) = .ok .gray2 ∧
    decode .exactText (.strip 0x33) = .ok .gray3 ∧
    decode .exactText (.strip 0x34) = .ok .gray4 ∧
    decode .exactText (.strip 0x35) = .ok .gray5 ∧
    decode .exactText (.strip 0x36) = .ok .gray6 ∧
    decode .exactText (.strip 0x37) = .ok .gray7 ∧
    decode .exactText (.strip 0x38) = .ok .gray8 ∧
    decode .exactText (.strip 0x39) = .ok .gray9 ∧
    decode .exactText (.strip 0x58) = .ok .allOff ∧
    decode .exactText (.strip 0x20) = .ok .skipSpace ∧
    decode .exactText (.strip 0x59) = .ok (.skipOther 0x59) := by
  decide

theorem test_decode_strip_letters :
    decode .exactText (.strip 0x61) = .ok .rainbow0 ∧
    decode .exactText (.strip 0x62) = .ok .rainbow1 ∧
    decode .exactText (.strip 0x63) = .ok .rainbow2 ∧
    decode .exactText (.strip 0x64) = .ok .rainbow3 ∧
    decode .exactText (.strip 0x65) = .ok .rainbow4 ∧
    decode .exactText (.strip 0x66) = .ok .rainbow5 ∧
    decode .exactText (.strip 0x67) = .ok .rainbow6 ∧
    decode .exactText (.strip 0x68) = .ok .rainbow7 ∧
    decode .exactText (.strip 0x69) = .ok .rainbow8 ∧
    decode .exactText (.strip 0x6A) = .ok .rainbow9 ∧
    decode .exactText (.strip 0x6B) = .ok .rainbow10 ∧
    decode .exactText (.strip 0x6C) = .ok .rainbow11 ∧
    decode .exactText (.strip 0x6D) = .ok .rainbow12 ∧
    decode .exactText (.strip 0x6E) = .ok .rainbow13 ∧
    decode .exactText (.strip 0x6F) = .ok .rainbow14 ∧
    decode .exactText (.strip 0x70) = .ok .rainbow15 ∧
    decode .exactText (.strip 0x71) = .ok .rainbow16 ∧
    decode .exactText (.strip 0x72) = .ok .rainbow17 ∧
    decode .exactText (.strip 0x73) = .ok .rainbow18 ∧
    decode .exactText (.strip 0x74) = .ok .rainbow19 ∧
    decode .exactText (.strip 0x75) = .ok .rainbow20 ∧
    decode .exactText (.strip 0x76) = .ok .rainbow21 ∧
    decode .exactText (.strip 0x77) = .ok .rainbow22 ∧
    decode .exactText (.strip 0x78) = .ok .rainbow23 ∧
    decode .exactText (.strip 0x79) = .ok .rainbow24 ∧
    decode .exactText (.strip 0x7A) = .ok .rainbow25 := by
  decide

theorem test_decode_cmd :
    decode .exactText (.cmd [0x2B, 0x43, 0x4D, 0x47, 0x53, 0x3D, 0x31]) = .ok .cmgs ∧
    decode .exactText (.cmd [0x2B, 0x43, 0x50, 0x49, 0x4E, 0x3F, 0x00]) = .ok .cpin ∧
    decode .exactText (.cmd [0x5A, 0x39, 0x00]) = .ok .z9 ∧
    decode .exactText (.cmd [0x5A, 0x39, 0x30]) = .ok .otherCmd ∧
    decode .exactText (.cmd [0x2B, 0x63, 0x70]) = .ok .otherCmd := by
  decide

theorem test_decode_refuses :
    decode .exactText (.byte 7 0x0D) = .error .noSuchState ∧
    decode .exactText (.cmd [0x2B, 0x43]) = .error .textCutShort ∧
    decode .exactText (.hex 0x1A) = .error .subIsNoMessageCharacter ∧
    decode .exactText (.hex 0x1B) = .error .escIsNoMessageCharacter := by
  decide

theorem test_decode_events_and_calls :
    decode .exactText (.event .reset) = .ok .reset ∧
    decode .exactText (.event (.byteIn 0x41)) = .ok (.byteIn 0x41) ∧
    decode .exactText (.event .timerTick) = .ok .timerTick ∧
    decode .exactText (.event .sclk) = .ok .sclk ∧
    decode .exactText (.fade (.setTarget 3 ⟨1, 2, 3⟩)) = .ok (.setTarget 3 ⟨1, 2, 3⟩) ∧
    decode .exactText (.fade .shiftOp) = .ok .shiftOp ∧
    decode .exactText (.fade .tick) = .ok .tick := by
  decide

theorem test_decode_table_words :
    decodeTableWord 8 0x0D = some .idleCr ∧
    decodeTableWord 8 0x1B = some .idleEsc ∧
    decodeTableWord 8 0x41 = some .expaA ∧
    decodeTableWord 8 0x42 = some .hexLetterB ∧
    decodeTableWord 48 0x2B434D47533D = some .cmgs ∧
    decodeTableWord 24 0x5A3900 = some .z9 ∧
    decodeTableWord 8 0x37 = some .hexDigit7 ∧
    decodeTableWord 8 0x7A = some .rainbow25 := by
  decide

/-! ### One byte in each state (95_test_vectors.md, section 2.1): state, replies, `len` after -/

/-- A row of the table of section 2.1. -/
def byteRowHolds (ps : ParserState) (cells : List (Byte × ParserState × Nat × Nat)) : Bool :=
  cells.all fun c => gives (exec (.byteIn c.1) (holding ps [0x00] 0)) fun t =>
    t.ps = c.2.1 && t.replyOut.length = c.2.2.1 && t.len.toNat = c.2.2.2

theorem test_bytes_idle : byteRowHolds .idle [(0x0D, .waitingForLineFeed, 2, 0), (0x0A, .idle, 0, 0),
    (0x41, .idle, 0, 0), (0x1A, .idle, 0, 0), (0x1B, .idle, 0, 0)] = true := by decide
theorem test_bytes_acr : byteRowHolds .awaitingCRAfterPrompt [(0x0D, .waitingForLineFeed, 2, 0),
    (0x0A, .idle, 0, 0), (0x54, .idle, 0, 0), (0x1B, .idle, 0, 0)] = true := by decide
theorem test_bytes_wlf : byteRowHolds .waitingForLineFeed [(0x0D, .idle, 2, 0), (0x0A, .expectingA, 0, 0),
    (0x41, .idle, 0, 0), (0x1B, .idle, 0, 0)] = true := by decide
theorem test_bytes_expa : byteRowHolds .expectingA [(0x0D, .idle, 2, 0), (0x0A, .idle, 0, 0),
    (0x41, .expectingT, 0, 0), (0x54, .idle, 0, 0), (0x1B, .idle, 0, 0)] = true := by decide
theorem test_bytes_expt : byteRowHolds .expectingT [(0x0D, .idle, 2, 0), (0x41, .idle, 0, 0),
    (0x54, .collectingCommand, 0, 0), (0x1B, .idle, 0, 0)] = true := by decide
theorem test_bytes_cc : byteRowHolds .collectingCommand [(0x0D, .waitingForLineFeed, 6, 0),
    (0x0A, .collectingCommand, 0, 1), (0x1A, .collectingCommand, 0, 1), (0x1B, .idle, 0, 0)] = true := by decide
theorem test_bytes_cm : byteRowHolds .collectingMessage [(0x0D, .collectingMessage, 2, 0),
    (0x41, .collectingMessage, 0, 0), (0x1A, .idle, 4, 0), (0x1B, .idle, 0, 0)] = true := by decide

theorem test_exptT_clears : gives (exec .exptT (holding .expectingT [0x5A, 0x39] 2)) (fun t =>
    t.len = 0 && t.readBuf 0 = .ok 0x00 && t.readBuf 1 = .ok 0x39) = true := by decide
theorem test_ccOther_full : gives (exec (.ccOther 0x61) (holding .collectingCommand (List.replicate 15 0x61) 15))
    (fun t => t.len = 15 && t.readBuf 15 = .error (.unwrittenByte 15)) = true := by decide
theorem test_cmCr_counts : gives (exec .cmCr (receiving [])) (fun t =>
    t.haveHi && t.hiNib = 0 && t.replyOut = [0x0D, 0x0A]) = true := by decide

/-! ### Commands (section 2.2): state, replies of the final CR, watchdog -/

/-- A row of the table of section 2.2. -/
def lineHolds (text : List Byte) (ps : ParserState) (replies : Nat) (armed : Bool) : Bool :=
  gives (exec .ccCr (collecting text)) fun t =>
    t.ps = ps && t.replyOut.length = replies && t.wdtArmed = armed

theorem test_line_cmgs : lineHolds [0x2B, 0x43, 0x4D, 0x47, 0x53, 0x3D, 0x31, 0x37] .collectingMessage 4 false = true := by
  decide
theorem test_line_cpin : lineHolds [0x2B, 0x43, 0x50, 0x49, 0x4E, 0x3F] .waitingForLineFeed 20 false = true := by decide
theorem test_line_z9 : lineHolds [0x5A, 0x39] .waitingForLineFeed 6 true = true := by decide
theorem test_line_z9_terminated : lineHolds [0x5A, 0x39, 0x00, 0x51] .waitingForLineFeed 6 true = true := by decide
theorem test_line_other : lineHolds [0x5A, 0x39, 0x30] .waitingForLineFeed 6 false = true ∧
    lineHolds [0x2B, 0x43, 0x50, 0x49, 0x4E] .waitingForLineFeed 6 false = true ∧
    lineHolds [] .waitingForLineFeed 6 false = true := by decide
theorem test_line_z9_start : gives (exec .ccCr { collecting [0x5A, 0x39, 0x30] with
    cfg := { tinyConfig 0 with z9Match := .startOfText } }) (fun t => t.wdtArmed) = true := by decide
theorem test_cpin_reply : gives (exec .cpin (tiny 0)) (fun t => t.replyOut =
    [0x2B, 0x43, 0x50, 0x49, 0x4E, 0x3A, 0x20, 0x52, 0x45, 0x41, 0x44, 0x59, 0x0D, 0x0A, 0x4F, 0x4B, 0x0D, 0x0A]) = true := by
  decide

/-! ### Message characters (section 2.3) -/

/-- The second character of a pair that began with nibble 4 makes the byte 0x40 plus its own nibble. -/
def secondMakes (i : Instr) (b : Byte) : Bool :=
  gives (exec i ((receiving []).setNibble true 4)) fun t => t.len = 1 && t.readBuf 0 = .ok b && !t.haveHi

theorem test_hex_digits : (secondMakes .hexDigit0 0x40 && secondMakes .hexDigit1 0x41 && secondMakes .hexDigit2 0x42
    && secondMakes .hexDigit3 0x43 && secondMakes .hexDigit4 0x44 && secondMakes .hexDigit5 0x45
    && secondMakes .hexDigit6 0x46 && secondMakes .hexDigit7 0x47 && secondMakes .hexDigit8 0x48
    && secondMakes .hexDigit9 0x49) = true := by decide
theorem test_hex_letters : (secondMakes .hexLetterA 0x4A && secondMakes .hexLetterB 0x4B && secondMakes .hexLetterC 0x4C
    && secondMakes .hexLetterD 0x4D && secondMakes .hexLetterE 0x4E && secondMakes .hexLetterF 0x4F) = true := by decide
theorem test_hex_other : (secondMakes (.hexOther 0x61) 0x40 && secondMakes (.hexOther 0x20) 0x40) = true := by decide
theorem test_hex_full : gives (exec .hexDigit1 ((receiving (List.replicate 15 0x41)).setNibble true 4)) (fun t =>
    t.len = 15 && !t.haveHi && t.readBuf 15 = .error (.unwrittenByte 15)) = true := by decide

/-! ### Septets and the envelope (section 2.4) -/

theorem test_pack_hellohello :
    packSeptets [0x68, 0x65, 0x6C, 0x6C, 0x6F, 0x68, 0x65, 0x6C, 0x6C, 0x6F]
      = [0xE8, 0x32, 0x9B, 0xFD, 0x46, 0x97, 0xD9, 0xEC, 0x37] := by decide
theorem test_septets_hellohello :
    septets [0xE8, 0x32, 0x9B, 0xFD, 0x46, 0x97, 0xD9, 0xEC, 0x37] 10
      = [0x68, 0x65, 0x6C, 0x6C, 0x6F, 0x68, 0x65, 0x6C, 0x6C, 0x6F] := by decide
theorem test_sliding_abcdefgh :
    slidingSeptets [0x61, 0xF1, 0x98, 0x5C, 0x36, 0x9F, 0xD1] 9
      = [0x61, 0x62, 0x63, 0x64, 0x65, 0x66, 0x67, 0x68] := by decide
theorem test_envelope_odd_address :
    (receiving [0x00, 0x01, 0x00, 0x03, 0x91, 0x21, 0xF3, 0x00, 0x00, 0x02, 0x61, 0x3D]).messageChars
      = .ok [0x61, 0x7A] := by decide
theorem test_envelope_too_short : (receiving [0x00, 0x01, 0x00]).messageChars = .ok [] ∧
    (receiving [0x00, 0x01, 0x00, 0x00, 0x91, 0x00, 0x00]).messageChars = .ok [] := by decide
theorem test_cmSub_alloff : gives (exec .cmSub
    ((receiving [0x00, 0x01, 0x00, 0x00, 0x91, 0x00, 0x00, 0x01, 0x58]).setLeds [fading])) (fun t =>
    t.ps = .idle && t.replyOut = [0x4F, 0x4B, 0x0D, 0x0A] && t.leds.map (·.tgt) = [⟨0, 0, 0⟩] && t.idx = 1
      && t.len = 9) = true := by decide

/-! ### Strip commands (section 2.5) -/

theorem test_rainbow_paints : (rainbowRows.map fun r => gives (exec r.2 ((tiny 1).setIdx 2)) fun t =>
    t.leds.map (·.cnt) = [0, 16] && t.idx = 3) = List.replicate 26 true := by decide
/-- Tables whose entries all differ. -/
def tabled : State := (State.resetWith { tinyConfig 0 with
  rainbow := some (Vector.ofFn fun k : Fin 26 => ⟨BitVec.ofNat 8 k.val, 1, 2⟩)
  grayTail := some (Vector.ofFn fun k : Fin 9 => ⟨3, 4, BitVec.ofNat 8 (k.val + 1)⟩) }).setIdx 1

theorem test_rainbow_entries : gives (exec .rainbow0 tabled) (fun t => t.scratch = ⟨0, 1, 2⟩) = true ∧
    gives (exec .rainbow25 tabled) (fun t => t.leds.map (·.tgt) = [⟨25, 1, 2⟩]) = true := by decide
theorem test_gray_entries : gives (exec .gray0 tabled) (fun t => t.scratch = ⟨0, 0, 0⟩) = true ∧
    gives (exec .gray1 tabled) (fun t => t.scratch = ⟨3, 4, 1⟩) = true ∧
    gives (exec .gray9 tabled) (fun t => t.leds.map (·.tgt) = [⟨3, 4, 9⟩]) = true := by decide
theorem test_gray_paints : (grayRows.map fun r => gives (exec r.2 ((tiny 1).setIdx 1)) fun t =>
    t.leds.map (·.cnt) = [16, 0] && t.idx = 2) = List.replicate 10 true := by decide
theorem test_gray0_off : gives (exec .gray0 ((tiny 0).setLeds [fading])) (fun t =>
    t.leds.map (·.tgt) = [⟨0, 0, 0⟩] && t.leds.map (·.cur) = [⟨79, 79, 79⟩]) = true := by decide
theorem test_allOff : gives (exec .allOff ((tiny 1).setIdx 5)) (fun t =>
    t.leds.map (·.cnt) = [16, 16] && t.idx = 6 && t.scratch = ⟨0, 0, 0⟩) = true := by decide
theorem test_skips : gives (exec .skipSpace ((tiny 0).setIdx 255)) (fun t => t.idx = 0) = true ∧
    gives (exec (.skipOther 0x41) ((tiny 0).setIdx 1)) (fun t => t.idx = 2 && t.leds = [Led.afterReset]) = true := by decide
theorem test_shift : gives (exec .shift (((tiny 1).setLeds [resting 1 2 3, resting 4 5 6]).setIdx 9)) (fun t =>
    t.idx = 1 && t.leds.map (·.tgt) = [⟨1, 2, 3⟩, ⟨1, 2, 3⟩]) = true := by decide

/-! ### Fades (section 2.6) -/

theorem test_fade_steps : [(0, 255), (255, 0), (10, 13), (200, 199), (100, 100), (16, 0), (37, 200), (79, 0)].map
    (fun p : Byte × Byte => (fadeStep 4 p.1 p.2).toNat)
      = [0x0FF0, 0x0FF1, 0x0030, 0x0011, 0x0000, 0x0101, 0x0A30, 0x04F1] := by decide
theorem test_setTarget_index : ([0, 1, 2, 3, 255].map fun i : Byte => gives (exec (.setTarget i ⟨9, 9, 9⟩) (tiny 1))
    fun t => t.leds.map (·.cnt.toNat) =
      if i = 0 then [16, 16] else if i = 1 then [16, 0] else if i = 2 then [0, 16] else [0, 0])
    = [true, true, true, true, true] := by decide
theorem test_setTarget_mid_fade : gives (exec (.setTarget 1 ⟨0, 0, 0⟩) busy) (fun t => t.leds.map (·.step)
    = [⟨0x04F1, 0x04F1, 0x04F1⟩] && t.leds.map (·.frac) = [⟨0, 0, 0⟩] && t.leds.map (·.cnt) = [16]) = true := by decide
theorem test_shiftOp : gives (exec .shiftOp ((tiny 3).setLeds [resting 1 0 0, resting 2 0 0, resting 3 0 0, resting 4 0 0]))
    (fun t => t.leds.map (·.tgt.a.toNat) = [1, 1, 2, 3] && t.leds.map (·.cnt.toNat) = [0, 16, 16, 16]) = true := by decide
theorem test_tick_at_rest : gives (exec .tick ((tiny 0).setLeds [{ resting 1 2 3 with cur := ⟨9, 9, 9⟩ }])) (fun t =>
    t.leds = [resting 1 2 3]) = true := by decide
theorem test_tick_in_fade : gives (exec .tick busy) (fun t =>
    t.leds.map (·.cur) = [⟨95, 95, 95⟩] && t.leds.map (·.cnt) = [10] && t.leds.map (·.frac) = [⟨160, 160, 160⟩]) = true := by
  decide

/-! ### The transmitter and the events (sections 2.7 and 2.8) -/

/-- The two LEDs of section 2.7. -/
def pair27 : State := (tiny 1).setLeds [resting 0xA5 0x00 0xFF, resting 0x01 0x80 0x3C]

theorem test_timerTick_triggers : gives (exec .timerTick pair27) (fun t =>
    t.txBusy && t.txPos = 0 && t.txBits = 0 && t.leds.map (·.snap) = [⟨0xA5, 0x00, 0xFF⟩, ⟨0x01, 0x80, 0x3C⟩]) = true := by
  decide
theorem test_timerTick_busy : gives (exec .timerTick busy) (fun t =>
    t.txPos = 2 && t.txBits = 6 && t.txSr = 0x08 && t.leds.map (·.snap) = [⟨1, 2, 3⟩]) = true := by decide
theorem test_sclk_refill : gives (exec .sclk (pair27.trigger)) (fun t =>
    t.txSr = 0x4A && t.txBits = 7 && t.txPos = 1 && t.stripOut = [.long]) = true := by decide
theorem test_sclk_last : gives (exec .sclk (busy.setTx true 3 1 0x80)) (fun t =>
    !t.txBusy && t.txPos = 3 && t.txBits = 0 && t.stripOut = [.long]) = true := by decide
theorem test_sclk_no_byte : runs (exec .sclk (busy.setTx true 3 0 0)) = false := by decide
theorem test_reset : gives (exec .reset busy) (fun t => t = tiny 0) = true := by decide

/-! ### Placed instructions -/

theorem test_place_byte : gives (step (State.reset.withFetchWord 8 0x0D)) (fun t =>
    t.ps = .waitingForLineFeed && t.inputs = []) = true := by decide
theorem test_place_command : gives (step (State.reset.withFetchWord 24 0x5A3900)) (fun t => t.wdtArmed) = true := by decide
theorem test_place_character : gives (step (State.reset.withFetchWord 8 0x37)) (fun t =>
    t.haveHi && t.hiNib = 7) = true := by decide
theorem test_place_strip : gives (step (State.reset.withFetchWord 8 0x58)) (fun t =>
    t.ps = .idle && t.leds.map (·.cnt) = [16, 16, 16, 16]) = true := by decide

/-! ### Witnesses: the hypotheses of each obligation, met -/

theorem witness_IdleArm : (0x0C : Byte) ≠ 0x0D ∧ (0x0C : Byte) ≠ 0x1B := by decide
theorem witness_AwaitingCRArm : (0x0E : Byte) ≠ 0x0D ∧ (0x0E : Byte) ≠ 0x1B := by decide
theorem witness_WaitingForLineFeedArm : (0x0B : Byte) ≠ 0x0A ∧ (0x0B : Byte) ≠ 0x0D ∧ (0x0B : Byte) ≠ 0x1B := by decide
theorem witness_ExpectingAArm : (0x40 : Byte) ≠ 0x41 ∧ (0x40 : Byte) ≠ 0x0D ∧ (0x40 : Byte) ≠ 0x1B := by decide
theorem witness_ExpectingTArm : (holding .expectingT [0x41, 0x42] 2).buf.wf = true ∧ (1 : Nat) ≠ 0 ∧
    (0x55 : Byte) ≠ 0x54 ∧ (0x55 : Byte) ≠ 0x0D ∧ (0x55 : Byte) ≠ 0x1B := by decide

theorem witness_TextByteIsAppended_row : (0x0E : Byte) ≠ 0x0D ∧ (0x0E : Byte) ≠ 0x1B := by decide

/-- Room for one more byte, and an index next to the bytes written. -/
theorem witness_TextByteIsAppended_room :
    let s := holding .collectingCommand (List.replicate 14 0x61) 14
    s.len.toNat < s.cfg.cap - 1 ∧ s.buf.wf = true ∧ 13 ≠ s.len.toNat ∧ 13 ≠ s.len.toNat + 1 := by decide

/-- No room. -/
theorem witness_TextByteIsAppended_full :
    let s := holding .collectingCommand (List.replicate 15 0x61) 15
    s.cfg.cap - 1 ≤ s.len.toNat := by decide

theorem witness_EscapeChangesStateOnly :
    Instr.cmEsc ∈ [Instr.idleEsc, .acrEsc, .wlfEsc, .expaEsc, .exptEsc, .ccEsc, .cmEsc] := by decide

/-- A short text, the empty one, and one that fills the buffer. -/
theorem witness_ClosingCrRunsTheCommand :
    (collecting [0x5A, 0x39]).HoldsText [0x5A, 0x39] ∧ (collecting []).HoldsText [] ∧
    (collecting (List.replicate 15 0x61)).HoldsText (List.replicate 15 0x61) := by
  unfold State.HoldsText State.Holds
  decide

theorem witness_CmgsEntersTheMessage : (collecting [0x5A, 0x39]).buf.wf = true ∧ (1 : Nat) ≠ 0 := by decide

theorem witness_FirstNibbleIsStored : (receiving [0x41]).haveHi = false ∧ (Instr.hexOther 0x2F).wf = true ∧
    (Instr.hexOther 0x3A).wf = true ∧ (Instr.hexOther 0x40).wf = true ∧ (Instr.hexOther 0x47).wf = true := by decide

/-- The second character with room for its byte, from a row of its own and from the default row. -/
theorem witness_SecondNibbleCompletesAByte_room :
    let s := (receiving (List.replicate 14 0x41)).setNibble true 4
    s.haveHi = true ∧ s.len.toNat < s.cfg.cap - 1 ∧ s.buf.wf = true ∧ 13 ≠ s.len.toNat ∧
      (Instr.hexLetterF, 15) ∈ [(Instr.hexLetterF, 15)] ∧ (Instr.hexOther 0x47).wf = true := by decide

theorem witness_SecondNibbleCompletesAByte_full :
    let s := (receiving (List.replicate 15 0x41)).setNibble true 4
    s.haveHi = true ∧ s.cfg.cap - 1 ≤ s.len.toNat ∧ (Instr.hexOther 0x40).wf = true := by decide

theorem witness_CharactersSelectTheirNibble : (receiving []).haveHi = false := by decide

theorem witness_UnpackerAsAFunction : (receiving []).ps = .collectingMessage ∧ (receiving []).haveHi = false ∧
    (receiving []).len = 0 ∧ (receiving []).buf.wf = true ∧
    (∀ c ∈ ([0x34, 0x41, 0x0D] : List Byte), c ≠ 0x1A ∧ c ≠ 0x1B) ∧ (0 : Nat) < 1 := by decide

/-- A message with two characters, one too short for an envelope, and none at all. -/
theorem witness_CtrlZRunsTheMessage :
    (receiving [0x00, 0x01, 0x00, 0x00, 0x91, 0x00, 0x00, 0x02, 0x61, 0x3D]).Holds
      [0x00, 0x01, 0x00, 0x00, 0x91, 0x00, 0x00, 0x02, 0x61, 0x3D] ∧
    (receiving [0x00, 0x01, 0x00]).Holds [0x00, 0x01, 0x00] ∧ (receiving []).Holds [] := by
  unfold State.Holds
  decide

theorem witness_StripCommandsTouchTargetsOnly : (Instr.skipOther 0x7F).format = .strip := by decide
theorem witness_RainbowCommands : (Instr.rainbow25, (25 : Fin 26)) ∈ [(Instr.rainbow25, (25 : Fin 26))] ∧
    tabled.cfg.rainbow.isSome = true := by decide
theorem witness_GrayCommands : (Instr.gray9, (9 : Fin 10)) ∈ [(Instr.gray9, (9 : Fin 10))] ∧
    tabled.cfg.grayTail.isSome = true := by decide

/-- A character on each border of the named ones. -/
theorem witness_SkipCommands : ∀ ch ∈ ([0x60, 0x7B, 0x2F, 0x3A, 0x59, 0x21] : List Septet), ch ≠ 0x3E ∧
    ¬ (0x61 ≤ ch.toNat ∧ ch.toNat ≤ 0x7A) ∧ ¬ (0x30 ≤ ch.toNat ∧ ch.toNat ≤ 0x39) ∧ ch ≠ 0x58 ∧ ch ≠ 0x20 := by decide

/-- The last LED, reached by its own index, by index 0, and not by its neighbour's. -/
theorem witness_SetTargetRetargets :
    let s := (tiny 1).setLeds [resting 1 2 3, fading]
    s.leds.length = s.n ∧ s.led 2 = some fading ∧ ((2 : Byte) = 0 ∨ (2 : Byte).toNat = 2) ∧
      ((0 : Byte) = 0 ∨ (0 : Byte).toNat = 2) ∧ (1 : Byte) ≠ 0 ∧ (1 : Byte).toNat ≠ 2 := by decide

/-- The second LED, and the last. -/
theorem witness_ShiftCascadesTargets :
    let s := (tiny 2).setLeds [resting 1 2 3, fading, resting 4 5 6]
    s.leds.length = s.n ∧ 2 ≤ 3 ∧ 3 ≤ s.n ∧ s.led (2 - 1) = some (resting 1 2 3) ∧ s.led (3 - 1) = some fading := by decide

theorem witness_TickSteps :
    let s := (tiny 2).setLeds [resting 1 2 3, fading, { fading with cnt := 1 }]
    s.led 1 = some (resting 1 2 3) ∧ (resting 1 2 3).cnt = 0 ∧ s.led 2 = some fading ∧ fading.cnt ≠ 0 ∧
      s.led 3 = some { fading with cnt := 1 } ∧ ({ fading with cnt := 1 } : Led).cnt ≠ 0 := by decide

/-- The start, the last tick and the first tick after the end of a fade, through either kind of index. -/
theorem witness_FadeClosedForm :
    let s := (tiny 1).setLeds [resting 10 200 0, fading]
    s.leds.length = s.n ∧ s.led 1 = some (resting 10 200 0) ∧ ((0 : Byte) = 0 ∨ (0 : Byte).toNat = 1) ∧
      ((1 : Byte) = 0 ∨ (1 : Byte).toNat = 1) ∧ s.cfg.fadeTicks = 16 ∧ s.cfg.fadeTicks ≤ 17 ∧
      ((resting 10 200 0).cur.get 0).toNat = 10 := by decide

/-- The state `busy` meets the invariants: a text, a fade and a frame under way. -/
theorem busy_inv : busy.Inv where
  bufWf := by decide
  bufInside := by decide
  lenBound := by decide
  written := by decide
  terminated := by decide
  reached := by decide
  ledCount := by decide
  ledsInv := by
    intro l hl
    have : l = fading := by simpa [busy, State.setTx, State.setLeds] using hl
    subst this
    exact .inr ⟨by decide, Colour.off, 5, ⟨by decide, by decide, by decide, by decide⟩⟩
  frame := by decide
  idxAtRest := by decide

/-- An event waiting changes no invariant. -/
theorem busy_waiting_inv (e : Event) : (busy.present e).Inv :=
  { busy_inv with }

theorem witness_TickMovesTowardTheTarget : busy.Inv ∧ busy.led 1 = some fading ∧
    (fading.cur.get 0).toNat ≤ (fading.tgt.get 0).toNat := ⟨busy_inv, by decide, by decide⟩

/-- An LED whose target lies below its live colour. -/
theorem witness_TickMovesTowardTheTarget_falling : runs (exec (.setTarget 1 ⟨0, 0, 0⟩) busy) = true ∧
    (busy.setTarget 1 ⟨0, 0, 0⟩).Inv ∧ (busy.setTarget 1 ⟨0, 0, 0⟩).led 1 = some (fading.retarget (tinyConfig 0) ⟨0, 0, 0⟩) ∧
    ((fading.retarget (tinyConfig 0) ⟨0, 0, 0⟩).tgt.get 0).toNat ≤ ((fading.retarget (tinyConfig 0) ⟨0, 0, 0⟩).cur.get 0).toNat :=
  ⟨by decide, { busy_inv with
    ledCount := by decide
    ledsInv := (setTarget_frame busy 1 ⟨0, 0, 0⟩).leds.inv busy_inv.ledsInv }, by decide, by decide⟩

theorem witness_TimerTickTriggersThenTicks : (tiny 0).txBusy = false ∧ busy.txBusy = true := by decide
theorem witness_IdleSclkDoesNothing : (tiny 0).txBusy = false := by decide

/-- A bit in the middle, the last bit of the frame, and the refill of the last byte. -/
theorem witness_BusySclkEmitsOneSymbol :
    (busy.txBusy = true ∧ busy.txBits ≠ 0) ∧
    ((busy.setTx true 3 1 0x80).txBusy = true ∧ (busy.setTx true 3 1 0x80).txBits ≠ 0) ∧
    let s := busy.setTx true 2 0 0
    s.txBusy = true ∧ s.txBits = 0 ∧ s.led (1 + s.txPos.toNat / 3) = some fading ∧
      (0x03 : Byte) = fading.snap.get (Fin.ofNat 3 (s.txPos.toNat % 3)) := by decide

theorem witness_FrameIsTheSnapshot :
    pair27.txBusy = false ∧ pair27.leds.length = pair27.n ∧ 47 < 24 * pair27.n ∧
      pair27.led (1 + 47 / 24) = some (resting 0x01 0x80 0x3C) := by decide

theorem witness_ByteAlwaysCompletes : busy.Inv := busy_inv

/-- An event taken, a byte taken, nothing to take. -/
theorem witness_StepRunsTheEventTaken :
    takeEvent (busy.present .sclk) = (some .sclk, busy) ∧
    takeEvent (busy.present (.byteIn 0x0D)) = (some (.byteIn 0x0D), busy) ∧ takeEvent busy = (none, busy) := by decide

/-- Each kind of instant. -/
theorem witness_EventsOfOneInstant :
    let s := fun i : Instant => (tiny 0).setInputs [i] 0
    ((s ⟨true, true, true, some 0x41⟩).inputs = [⟨true, true, true, some 0x41⟩]) ∧
    ((s ⟨false, true, true, some 0x41⟩).inputs = [⟨false, true, true, some 0x41⟩]) ∧
    ((s ⟨false, false, true, none⟩).inputs = [⟨false, false, true, none⟩]) ∧
    ((s ⟨false, false, false, some 0x41⟩).inputs = [⟨false, false, false, some 0x41⟩]) ∧
    ((s ⟨false, false, true, some 0x41⟩).inputs = [⟨false, false, true, some 0x41⟩]) := by decide

theorem witness_DecodeOfEncode : (Instr.hexOther 0x2F).wf = true ∧ (Instr.skipOther 0x60).wf = true ∧ Instr.cmSub.wf = true := by
  decide
theorem witness_DecodedInstructionsAreWellFormed :
    decode .startOfText (.cmd [0x5A, 0x39]) = .ok .z9 ∧ decode .exactText (.strip 0x60) = .ok (.skipOther 0x60) := by decide
theorem witness_NoCodeIsIllegal : (0x19 : Byte) ≠ 0x1A ∧ (0x19 : Byte) ≠ 0x1B ∧ (0x1C : Byte) ≠ 0x1A ∧ (0x1C : Byte) ≠ 0x1B := by
  decide

theorem witness_StepKeepsTheInvariants : (busy.present .sclk).Inv ∧ runs (step (busy.present .sclk)) = true :=
  ⟨busy_waiting_inv .sclk, by decide⟩
theorem witness_StepNeverStops : (busy.present (.byteIn 0x0D)).Inv := busy_waiting_inv _

theorem witness_BufferFormIsKept : busy.buf.wf = true ∧ runs (exec (.ccOther 0x61) busy) = true := by decide

/-- Armed and kept so; not armed, and armed by each of the three. -/
theorem witness_WatchdogIsSticky :
    (Instr.ccCr ≠ .reset ∧ busy.armWatchdog.wdtArmed = true ∧ runs (exec .ccCr busy.armWatchdog) = true) ∧
    (let s := collecting [0x5A, 0x39]
     s.wdtArmed = false ∧ gives (exec .z9 s) (·.wdtArmed) = true ∧ gives (exec .ccCr s) (·.wdtArmed) = true ∧
       gives (exec (.byteIn 0x0D) s) (·.wdtArmed) = true) := by decide

theorem witness_OnlyTicksMoveLiveColours : Instr.cmSub ≠ .tick ∧ Instr.cmSub ≠ .timerTick ∧ Instr.cmSub ≠ .reset ∧
    runs (exec .cmSub busy) = true := by decide
theorem witness_FrameIsNotCancelled : Instr.timerTick ≠ .sclk ∧ Instr.timerTick ≠ .reset ∧ busy.txBusy = true ∧
    runs (exec .timerTick busy) = true := by decide

/-- Two states that agree on what the transmitter sees and differ in their parser, text and live colours. -/
theorem witness_SclkSeesOnlyTheSnapshot :
    let s' := ((receiving [0x41]).setLeds [{ Led.afterReset with snap := fading.snap }]).setTx true 2 6 0x08
    s'.txBusy = busy.txBusy ∧ s'.txPos = busy.txPos ∧ s'.txBits = busy.txBits ∧ s'.txSr = busy.txSr ∧ s'.n = busy.n ∧
      s'.leds.map Led.snap = busy.leds.map Led.snap ∧ runs (exec .sclk busy) = true := by decide

theorem witness_SclkCommutesWithTheMainLine :
    runs (exec .sclk busy) = true ∧ runs (exec (.byteIn 0x0D) busy) = true ∧ busy.txBusy = true ∧
      gives (exec .sclk busy) (·.txBusy) = true ∧ runs (exec .timerTick busy) = true := by decide

theorem witness_NothingIsCreatedOrDestroyed : runs (exec .reset busy) = true ∧ busy.leds.length = busy.n := by decide

/-- A short text, and one that fills the buffer of 16 bytes. -/
theorem witness_UnrecognisedLineIsAnsweredOk :
    (tiny 0).ps = .idle ∧ (tiny 0).buf.wf = true ∧ (∀ b ∈ ([0x49] : List Byte), b ≠ 0x0D ∧ b ≠ 0x1B) ∧
      ([0x49] : List Byte).length < (tiny 0).cfg.cap ∧ commandOf .exactText [0x49] = .otherCmd ∧
      (List.replicate 15 (0x61 : Byte)).length < (tiny 0).cfg.cap ∧
      commandOf .exactText (List.replicate 15 0x61) = .otherCmd := by decide

theorem witness_StatusLineIsAnswered :
    let text : List Byte := [0x2B, 0x43, 0x50, 0x49, 0x4E, 0x3F, 0x3D, 0x31]
    (tiny 0).ps = .idle ∧ (tiny 0).buf.wf = true ∧ (∀ b ∈ text, b ≠ 0x0D ∧ b ≠ 0x1B) ∧
      text.length < (tiny 0).cfg.cap ∧ [0x2B, 0x43, 0x50, 0x49, 0x4E, 0x3F] <+: text := by decide

/-- A message whose envelope fills the buffer: 15 bytes, eight characters. -/
theorem witness_MessageAppliesItsText :
    let cmd : List Byte := [0x2B, 0x43, 0x4D, 0x47, 0x53, 0x3D]
    let text : List Septet := [0x61, 0x3E, 0x62, 0x3E, 0x63, 0x3E, 0x64, 0x58]
    (tiny 0).ps = .idle ∧ (tiny 0).buf.wf = true ∧ (tiny 0).cfg.envSkip = 7 ∧ (∀ b ∈ cmd, b ≠ 0x0D ∧ b ≠ 0x1B) ∧
      cmd.length < (tiny 0).cfg.cap ∧ [0x2B, 0x43, 0x4D, 0x47, 0x53, 0x3D] <+: cmd ∧
      ([0x91, 0x00, 0x00] : List Byte).length = (BitVec.toNat (0x00 : Byte) + 1) / 2 + 3 ∧ text.length ≤ 255 ∧
      (envelope (0x00, 0x01, 0x00) 0x00 [0x91, 0x00, 0x00] text).length ≤ (tiny 0).cfg.cap - 1 := by decide

end Sys2Proof.Tests
end

section
/-! PROOF. A step runs the event it takes (00_scope.md): the step by what `takeEvent` answers, and the
row that a byte's code decodes to. -/
namespace Sys2Proof.Machine

/-! ### The decoder on the codes of bytes -/

@[simp] theorem stateOfCode_code (ps : ParserState) : stateOfCode ps.code = some ps := by
  cases ps <;> rfl

/-- The code of a byte taken in a parser state is never rejected (R108, R140). -/
@[simp] theorem decode_byte_code (z : Z9Match) (ps : ParserState) (b : Byte) :
    decode z (.byte ps.code b) = .ok (byteRow ps b) := by
  simp only [decode, stateOfCode_code]

/-! ### The step by the event taken -/

theorem step_of_takeEvent_some {s t : State} {e : Event} (h : takeEvent s = (some e, t)) :
    step s = exec e.instr t := by
  simp only [step, h]

theorem step_of_takeEvent_none {s t : State} (h : takeEvent s = (none, t)) : step s = .next t := by
  simp only [step, h]

/-- A byte taken runs the row that the parser state and the byte select (R131). -/
theorem step_of_takeEvent_byteIn {s t : State} {b : Byte} (h : takeEvent s = (some (.byteIn b), t)) :
    step s = exec (byteRow t.ps b) t :=
  calc step s = exec (.byteIn b) t := step_of_takeEvent_some h
    _ = exec (byteRow t.ps b) t := byteIn_exec b t

/-- Settles O38: the row that the byte's code decodes to is `byteRow`, which a `BYTE_IN` step runs. -/
theorem stepRunsTheEventTaken : Obligations.StepRunsTheEventTaken := by
  refine ⟨fun s e t h => step_of_takeEvent_some h, fun s b t h => ?_, fun s t h => step_of_takeEvent_none h⟩
  have hwf : (byteRow t.ps b).wf = true := (byteRow_format t.ps b).2
  exact ⟨byteRow t.ps b, decode_byte_code _ _ _, hwf, step_of_takeEvent_byteIn h⟩

end Sys2Proof.Machine
end

section
/-! PROOF. What every instruction changes and what it leaves alone: one inversion lemma for the bytes, one for
the events of the strip, and the frame of every instruction (R23, R40, R41, R130, R202). -/
namespace Sys2Proof.Machine

/-! ### Fields that an append and a nibble leave alone (R63, R171) -/

@[simp] theorem bufAppend_cfg (s : State) (v : Byte) (term : Bool) : (s.bufAppend v term).cfg = s.cfg := by
  rw [bufAppend_same]
@[simp] theorem bufAppend_idx (s : State) (v : Byte) (term : Bool) : (s.bufAppend v term).idx = s.idx := by
  rw [bufAppend_same]
@[simp] theorem bufAppend_wdtArmed (s : State) (v : Byte) (term : Bool) :
    (s.bufAppend v term).wdtArmed = s.wdtArmed := by
  rw [bufAppend_same]
@[simp] theorem bufAppend_replyOut (s : State) (v : Byte) (term : Bool) :
    (s.bufAppend v term).replyOut = s.replyOut := by
  rw [bufAppend_same]

/-- Everything a nibble can do: complete a byte, or wait as the first of a pair (R172, R173). -/
theorem feedNibble_cases (s : State) (n : BitVec 4) :
    s.feedNibble n = (s.bufAppend (pairByte s.hiNib n) false).setNibble false s.hiNib ∨
    s.feedNibble n = s.setNibble true n := by
  unfold State.feedNibble
  cases s.haveHi
  · exact .inr rfl
  · exact .inl rfl

theorem feedNibble_same (s : State) (n : BitVec 4) :
    s.feedNibble n = { s with
      buf := (s.feedNibble n).buf, len := (s.feedNibble n).len,
      haveHi := (s.feedNibble n).haveHi, hiNib := (s.feedNibble n).hiNib } := by
  rcases feedNibble_cases s n with h | h <;> rw [h]
  · rw [bufAppend_same]
    rfl
  · rfl

@[simp] theorem feedNibble_idx (s : State) (n : BitVec 4) : (s.feedNibble n).idx = s.idx := by
  rw [feedNibble_same]
@[simp] theorem feedNibble_wdtArmed (s : State) (n : BitVec 4) : (s.feedNibble n).wdtArmed = s.wdtArmed := by
  rw [feedNibble_same]
@[simp] theorem feedNibble_replyOut (s : State) (n : BitVec 4) : (s.feedNibble n).replyOut = s.replyOut := by
  rw [feedNibble_same]

@[simp] theorem State.emit_nil (s : State) : s.emit [] = s := by simp [State.emit]

/-- A HEX row feeds some nibble, and does nothing else (R171). -/
theorem exec_hex {i : Instr} (h : i.format = .hex) (s : State) : ∃ n, exec i s = .next (s.feedNibble n) := by
  cases i <;> first
    | (cases h; done)
    | exact ⟨_, rfl⟩

/-! ### The rows of a byte -/

/-- The code of the row a byte selects is the byte in the state it was taken in (R140). -/
theorem encode_byteRow (ps : ParserState) : ∀ b : Byte, encode (byteRow ps b) = .byte ps.code b := by
  cases ps <;> decide

theorem eq_collectingCommand_of_code {ps : ParserState} (h : ps.code = 5) : ps = .collectingCommand := by
  cases ps <;> first | rfl | cases h

/-- Text bytes are stored in `CollectingCommand` alone (R138). -/
theorem ps_of_byteRow_eq_ccOther {ps : ParserState} {b c : Byte} (h : byteRow ps b = .ccOther c) :
    ps = .collectingCommand := by
  have hcode := encode_byteRow ps b
  rw [h] at hcode
  exact eq_collectingCommand_of_code (Code.byte.inj hcode).1.symm

/-- The closing CR is the byte 0x0D in `CollectingCommand` (R137). -/
theorem of_byteRow_eq_ccCr {ps : ParserState} {b : Byte} (h : byteRow ps b = .ccCr) :
    ps = .collectingCommand ∧ b = 0x0D := by
  have hcode := encode_byteRow ps b
  rw [h] at hcode
  obtain ⟨hps, hb⟩ := Code.byte.inj hcode
  exact ⟨eq_collectingCommand_of_code hps.symm, hb.symm⟩

/-- Ctrl-Z after a run of the interpreter leaves the scratch slot, the LEDs and the index to the run (R185). -/
theorem runInterpreter_same {s u : State} (h : runInterpreter s = .next u) :
    u = { s with scratch := u.scratch, leds := u.leds, idx := 1 } := by
  obtain ⟨chars, t, -, -, hf, rfl⟩ := runInterpreter_eq_next h
  rw [hf.same]
  rfl

theorem execCmCr_eq (s : State) :
    execCmCr s = .next (((s.emit replyEcho).feedNibble (nib byteCR)).setPs .collectingMessage) := by
  rw [execCmCr, hexChar_eq, andThen_next]

theorem execCmOther_eq (b : Byte) (s : State) :
    execCmOther b s = .next ((s.feedNibble (nib b)).setPs .collectingMessage) := by
  rw [execCmOther, hexChar_eq, andThen_next]

@[simp] theorem readablePrefix_emit (s : State) (r : List Byte) (i k : Nat) :
    (s.emit r).readablePrefix i k = s.readablePrefix i k := by
  induction k generalizing i with
  | zero => rfl
  | succ k ih =>
    have hread : (s.emit r).readBuf i = s.readBuf i := rfl
    simp only [State.readablePrefix, hread, ih]

/-- The echo leaves the command text as it was. -/
@[simp] theorem commandText_emit (s : State) (r : List Byte) : (s.emit r).commandText = s.commandText :=
  readablePrefix_emit s r 0 6

/-- Everything that a byte row `i` can make of a state `s` (R131 to R147). -/
inductive ByteEffect (s : State) : Instr → State → Prop
  /-- Another parser state, after an echo or without one. -/
  | leave {i : Instr} (r : List Byte) (p : ParserState) (hr : r.length ≤ 2)
      (hacr : p ≠ .awaitingCRAfterPrompt) (hcc : p ≠ .collectingCommand) :
      ByteEffect s i ((s.emit r).setPs p)
  /-- The `T` that starts a text (R136). -/
  | startText : ByteEffect s .exptT (s.bufClear.setPs .collectingCommand)
  /-- A byte of a text (R138). -/
  | text (b : Byte) : ByteEffect s (.ccOther b) ((s.bufAppend b true).setPs .collectingCommand)
  /-- The CR that ends `+CMGS=` (R142). -/
  | prompt : ByteEffect s .ccCr
      ((((s.emit replyEcho).emit replyPrompt).bufClear.setNibble false 0).setPs .collectingMessage)
  /-- The CR that ends a text with an answer of its own or with `OK` alone (R143, R145). -/
  | answer (r : List Byte) (hr : r.length ≤ 14) : ByteEffect s .ccCr ((s.emit replyEcho).emit r).acknowledge
  /-- The CR that ends `Z9` (R144). -/
  | arm (hz : cmdRow s.cfg.z9Match s.commandText = some .z9) :
      ByteEffect s .ccCr (s.emit replyEcho).armWatchdog.acknowledge
  /-- A character of a message, after an echo or without one (R139). -/
  | character {i : Instr} (r : List Byte) (n : BitVec 4) (hr : r.length ≤ 2) :
      ByteEffect s i (((s.emit r).feedNibble n).setPs .collectingMessage)
  /-- The Ctrl-Z that ends a message (R139, R185). -/
  | message (c : Colour) (l : List Led) : ByteEffect s .cmSub
      { s with scratch := c, leds := l, idx := 1, replyOut := s.replyOut ++ replyOk, ps := .idle }

theorem ByteEffect.silent {s : State} {i : Instr} (p : ParserState) (hacr : p ≠ .awaitingCRAfterPrompt)
    (hcc : p ≠ .collectingCommand) : ByteEffect s i (s.setPs p) := by
  simpa using ByteEffect.leave (s := s) (i := i) [] p (by decide) hacr hcc

/-- What the closing CR answers, by the command its text selects (R137). -/
theorem execCcCr_effect {s t : State} (h : execCcCr s = .next t) : ByteEffect s .ccCr t := by
  obtain ⟨c, hc, ht, rfl | rfl | rfl | rfl⟩ := dispatch_eq_next h <;> cases ht
  · exact .prompt
  · exact .answer replyStatus (by decide)
  · exact .arm (by simpa using hc)
  · simpa using ByteEffect.answer (s := s) [] (by decide)

theorem runByteRow_effect {i : Instr} {s t : State} (h : runByteRow i s = .next t) : ByteEffect s i t := by
  cases i with
  | idleEsc | idleOther | acrEsc | acrOther | wlfEsc | wlfLf | wlfOther | expaEsc | expaA | expaOther | exptEsc
  | exptOther | ccEsc | cmEsc =>
    cases h
    exact .silent _ (by decide) (by decide)
  | idleCr | acrCr | wlfCr | expaCr | exptCr =>
    cases h
    exact .leave replyEcho _ (by decide) (by decide) (by decide)
  | exptT =>
    cases h
    exact .startText
  | ccOther b =>
    cases h
    exact .text b
  | ccCr => exact execCcCr_effect h
  | cmCr =>
    obtain rfl := Host.Outcome.next.inj ((execCmCr_eq s).symm.trans h)
    exact .character replyEcho _ (by decide)
  | cmOther b =>
    obtain rfl := Host.Outcome.next.inj ((execCmOther_eq b s).symm.trans h)
    simpa using ByteEffect.character (s := s) (i := .cmOther b) [] (nib b) (by decide)
  | cmSub =>
    obtain ⟨u, hu, ht⟩ := andThen_eq_next.mp h
    obtain rfl := Host.Outcome.next.inj ht
    rw [runInterpreter_same hu]
    exact .message _ _
  | _ => cases h

/-- A byte row replies with at most `REPLY_MAX` bytes (R150). -/
theorem ByteEffect.reply {s t : State} {i : Instr} (h : ByteEffect s i t) :
    ∃ out, t.replyOut = s.replyOut ++ out ∧ out.length ≤ Config.replyMax := by
  unfold Config.replyMax
  cases h with
  | leave r p hr => exact ⟨r, rfl, by omega⟩
  | startText => exact ⟨[], by simp [State.bufClear], by decide⟩
  | text b => exact ⟨[], by simp, by decide⟩
  | prompt => exact ⟨replyEcho ++ replyPrompt, by simp [State.bufClear, State.emit], by decide⟩
  | answer r hr =>
    refine ⟨replyEcho ++ r ++ replyOk, by simp [State.acknowledge, State.emit], ?_⟩
    simp only [List.length_append, replyEcho, replyOk, List.length_cons, List.length_nil]
    omega
  | arm => exact ⟨replyEcho ++ replyOk, by simp [State.acknowledge, State.emit, State.armWatchdog], by decide⟩
  | character r n hr => exact ⟨r, by simp [State.emit], by omega⟩
  | message => exact ⟨replyOk, rfl, by decide⟩

/-- No byte row but the closing CR of a text that selects `Z9` arms the watchdog (R144). -/
theorem ByteEffect.wdtArmed_cases {s t : State} {i : Instr} (h : ByteEffect s i t) :
    t.wdtArmed = s.wdtArmed ∨ i = .ccCr ∧ cmdRow s.cfg.z9Match s.commandText = some .z9 := by
  cases h with
  | arm hz => exact .inr ⟨rfl, hz⟩
  | leave | startText | prompt | answer | message => exact .inl rfl
  | text | character => exact .inl (by simp)

/-! ### The events of the strip (R228, R252, R254) -/

/-- What the ticks and the serial clock can change: the LEDs, whose number stays, and the transmitter. -/
structure StripOnly (s t : State) : Prop where
  same : t = { s with
    leds := t.leds, txBusy := t.txBusy, txPos := t.txPos, txBits := t.txBits, txSr := t.txSr, stripOut := t.stripOut }
  ledCount : t.leds.length = s.leds.length

theorem StripOnly.cfg {s t : State} (h : StripOnly s t) : t.cfg = s.cfg := by rw [h.same]
theorem StripOnly.ps {s t : State} (h : StripOnly s t) : t.ps = s.ps := by rw [h.same]
theorem StripOnly.buf {s t : State} (h : StripOnly s t) : t.buf = s.buf := by rw [h.same]
theorem StripOnly.len {s t : State} (h : StripOnly s t) : t.len = s.len := by rw [h.same]
theorem StripOnly.idx {s t : State} (h : StripOnly s t) : t.idx = s.idx := by rw [h.same]
theorem StripOnly.wdtArmed {s t : State} (h : StripOnly s t) : t.wdtArmed = s.wdtArmed := by rw [h.same]

theorem StripOnly.trans {s t u : State} (h : StripOnly s t) (h' : StripOnly t u) : StripOnly s u := by
  refine ⟨?_, h'.ledCount.trans h.ledCount⟩
  have hu := h'.same
  rw [h.same] at hu
  exact hu

theorem tickLeds_stripOnly (s : State) : StripOnly s s.tickLeds := ⟨rfl, by simp [State.tickLeds]⟩

theorem trigger_stripOnly (s : State) : StripOnly s s.trigger := by
  rcases trigger_cases s with ⟨-, h⟩ | ⟨-, h⟩ <;> rw [h]
  · exact ⟨rfl, rfl⟩
  · exact ⟨rfl, by simp⟩

theorem pulseStep_leds {s t : State} (h : pulseStep s = .next t) : t.leds = s.leds := by
  rcases pulseStep_eq_next h with ⟨-, rfl⟩ | ⟨-, -, v, -, rfl⟩ | ⟨-, -, rfl⟩ <;> rfl

theorem pulseStep_stripOnly {s t : State} (h : pulseStep s = .next t) : StripOnly s t := by
  refine ⟨?_, by rw [pulseStep_leds h]⟩
  rcases pulseStep_eq_next h with ⟨-, rfl⟩ | ⟨-, -, v, -, rfl⟩ | ⟨-, -, rfl⟩ <;> rfl

@[simp] theorem tickLeds_snap (s : State) : s.tickLeds.leds.map Led.snap = s.leds.map Led.snap := by
  simp [State.tickLeds, Function.comp_def]

/-! ### All instructions -/

/-- Every instruction but `RESET` is bounded by the frame of a byte or by that of the strip's events. -/
theorem exec_frame_cases {i : Instr} {s t : State} (h : exec i s = .next t) :
    ByteFrame s t ∨ StripOnly s t ∨ i = .reset := by
  rcases exec_frame h with hf | rfl | rfl | rfl | rfl
  · exact .inl hf
  · cases h
    exact .inr (.inl (tickLeds_stripOnly s))
  · cases h
    exact .inr (.inl ((trigger_stripOnly s).trans (tickLeds_stripOnly _)))
  · exact .inr (.inr rfl)
  · exact .inr (.inl (pulseStep_stripOnly h))

/-- Nothing but `RESET` disarms the watchdog (R288). -/
theorem exec_keeps_armed {i : Instr} {s t : State} (hi : i ≠ .reset) (ha : s.wdtArmed = true)
    (h : exec i s = .next t) : t.wdtArmed = true := by
  rcases exec_frame_cases h with hf | hf | rfl
  · exact hf.armed ha
  · rw [hf.wdtArmed, ha]
  · exact absurd rfl hi

/-- An instruction keeps the watchdog as it was, disarms it as `RESET` does, or is one of the three that run
`Z9` (R144). -/
theorem exec_wdtArmed_cases {i : Instr} {s t : State} (h : exec i s = .next t) :
    t.wdtArmed = s.wdtArmed ∨ t.wdtArmed = false ∨ i = .z9 ∨
      cmdRow s.cfg.z9Match s.commandText = some .z9 ∧
        (i = .ccCr ∨ i = .byteIn 0x0D ∧ s.ps = .collectingCommand) := by
  cases hf : i.format with
  | byte =>
    rw [← runByteRow_exec hf] at h
    exact (runByteRow_effect h).wdtArmed_cases.imp id fun ⟨hi, hz⟩ => .inr (.inr ⟨hz, .inl hi⟩)
  | cmd =>
    cases i <;> first
      | (cases hf; done)
      | (cases h; exact .inl rfl)
      | exact .inr (.inr (.inl rfl))
  | hex =>
    obtain ⟨n, hn⟩ := exec_hex hf s
    obtain rfl := Host.Outcome.next.inj (hn.symm.trans h)
    exact .inl (feedNibble_wdtArmed s n)
  | strip =>
    obtain ⟨u, hu, hs⟩ := runStripRow_next hf s
    rw [runStripRow_exec hf, h] at hu
    obtain rfl := Host.Outcome.next.inj hu
    exact .inl (by rw [hs.same])
  | fade =>
    cases i <;> first
      | (cases hf; done)
      | (cases h; exact .inl rfl)
  | event =>
    cases i with
    | reset =>
      cases h
      exact .inr (.inl rfl)
    | byteIn b =>
      refine (runByteRow_effect (i := byteRow s.ps b) h).wdtArmed_cases.imp id fun ⟨hrow, hz⟩ => ?_
      obtain ⟨hps, rfl⟩ := of_byteRow_eq_ccCr hrow
      exact .inr (.inr ⟨hz, .inr ⟨rfl, hps⟩⟩)
    | timerTick =>
      cases h
      exact .inl ((trigger_stripOnly s).trans (tickLeds_stripOnly _)).wdtArmed
    | sclk => exact .inl (pulseStep_stripOnly h).wdtArmed
    | _ => cases hf

end Sys2Proof.Machine
end

section
/-! PROOF. The invariants of R39, kept by every event: those of the parser and its buffer, and those of the
strip, each kept apart from the other. -/
namespace Sys2Proof.Machine

/-! ### The buffer and the parser -/

/-- The clauses of `State.Inv` on the Command Line Buffer and its length (R35, R60). -/
structure State.BufferInv (s : State) : Prop where
  wf : s.buf.wf = true
  inside : ∀ c ∈ s.buf, c.1 < s.cfg.cap
  lenBound : s.len.toNat ≤ s.cfg.cap - 1
  written : ∀ i, i < s.len.toNat → (bufferRead s.buf i).isSome = true

/-- The clauses of `State.Inv` on the parser (invariants 1 to 3 of R39, R193). -/
structure State.ParserInv (s : State) : Prop where
  buffer : s.BufferInv
  terminated : s.ps = .collectingCommand → bufferRead s.buf s.len.toNat = some 0x00
  reached : s.ps ≠ .awaitingCRAfterPrompt
  idxAtRest : s.idx = 1

theorem State.BufferInv.congr {s t : State} (h : s.BufferInv) (hc : t.cfg = s.cfg) (hb : t.buf = s.buf)
    (hl : t.len = s.len) : t.BufferInv where
  wf := hb ▸ h.wf
  inside := hc ▸ hb ▸ h.inside
  lenBound := hc ▸ hl ▸ h.lenBound
  written := hb ▸ hl ▸ h.written

theorem bufClear_bufferInv {s : State} (h : s.BufferInv) : s.bufClear.BufferInv where
  wf := bufClear_wf h.wf
  inside := by
    intro c hc
    have := cap_bounds s.cfg
    change c.1 < s.cfg.cap
    rcases bufferWrite_mem hc with h0 | hmem
    · omega
    · exact h.inside c hmem
  lenBound := Nat.zero_le _
  written := fun i hi => absurd hi (Nat.not_lt_zero i)

/-- An append keeps the buffer's clauses: with room both bytes it writes are below `CAP` (R63, R64). -/
theorem bufAppend_bufferInv {s : State} (h : s.BufferInv) (v : Byte) (term : Bool) :
    (s.bufAppend v term).BufferInv := by
  have hwf := bufAppend_wf v term h.wf
  rcases bufAppend_cases s v term with ⟨hroom, heq⟩ | ⟨-, heq⟩
  · have hlen : (s.bufAppend v term).len.toNat = s.len.toNat + 1 := by
      rw [heq]
      exact len_succ hroom
    refine ⟨hwf, ?_, by rw [hlen, bufAppend_cfg]; omega, ?_⟩
    · intro c hc
      rw [heq, State.setBuffer_buf] at hc
      have hcases : c.1 = s.len.toNat + 1 ∨ c.1 = s.len.toNat ∨ c ∈ s.buf := by
        cases term
        · exact .inr (bufferWrite_mem hc)
        · exact (bufferWrite_mem hc).imp id bufferWrite_mem
      rw [bufAppend_cfg]
      rcases hcases with hc | hc | hc
      · omega
      · omega
      · exact h.inside c hc
    · intro i hi
      rw [hlen] at hi
      have hread : bufferRead (s.bufAppend v term).buf i = bufferRead (bufferWrite s.buf s.len.toNat v) i := by
        rw [heq]
        cases term
        · rfl
        · exact bufferRead_write_other (by omega)
      rw [hread, bufferRead_write h.wf]
      split
      · rfl
      · exact h.written i (by omega)
  · rw [heq]
    exact h

/-- A text that is terminated stays so when a byte is appended with its terminator, or dropped (R63, R64). -/
theorem bufAppend_terminated {s : State} (hwf : s.buf.wf = true)
    (ht : bufferRead s.buf s.len.toNat = some 0x00) (v : Byte) :
    bufferRead (s.bufAppend v true).buf (s.bufAppend v true).len.toNat = some 0x00 := by
  rcases bufAppend_cases s v true with ⟨hroom, heq⟩ | ⟨-, heq⟩ <;> rw [heq]
  · rw [State.setBuffer_len, len_succ hroom]
    exact bufferRead_write_same (bufferWrite_wf _ _ hwf)
  · exact ht

theorem feedNibble_bufferInv {s : State} (h : s.BufferInv) (n : BitVec 4) : (s.feedNibble n).BufferInv := by
  rcases feedNibble_cases s n with heq | heq <;> rw [heq]
  · exact (bufAppend_bufferInv h _ _).congr rfl rfl rfl
  · exact h.congr rfl rfl rfl

/-- A byte row keeps the parser's invariants, if a text byte is taken only while a text is collected. -/
theorem ByteEffect.parserInv {s t : State} {i : Instr} (he : ByteEffect s i t)
    (hcc : ∀ b, i = .ccOther b → s.ps = .collectingCommand) (h : s.ParserInv) : t.ParserInv := by
  have hb := h.buffer
  cases he with
  | leave r p _ hacr hp => exact ⟨hb.congr rfl rfl rfl, fun hps => absurd hps hp, hacr, h.idxAtRest⟩
  | startText =>
    exact ⟨(bufClear_bufferInv hb).congr rfl rfl rfl, fun _ => bufClear_reads hb.wf 0, by simp, h.idxAtRest⟩
  | text b =>
    have hterm := bufAppend_terminated hb.wf (h.terminated (hcc b rfl)) b
    exact ⟨(bufAppend_bufferInv hb b true).congr rfl rfl rfl, fun _ => hterm, by simp, by simpa using h.idxAtRest⟩
  | prompt => exact ⟨(bufClear_bufferInv hb).congr rfl rfl rfl, by simp, by simp, h.idxAtRest⟩
  | answer | arm => exact ⟨hb.congr rfl rfl rfl, by simp [State.acknowledge], by simp [State.acknowledge], h.idxAtRest⟩
  | character r n =>
    have hb' := feedNibble_bufferInv (hb.congr (t := s.emit r) rfl rfl rfl) n
    exact ⟨hb'.congr rfl rfl rfl, by simp, by simp, by simpa using h.idxAtRest⟩
  | message => exact ⟨hb.congr rfl rfl rfl, by simp, by simp, rfl⟩

theorem StripOnly.parserInv {s t : State} (hs : StripOnly s t) (h : s.ParserInv) : t.ParserInv where
  buffer := h.buffer.congr hs.cfg hs.buf hs.len
  terminated := by
    rw [hs.ps, hs.buf, hs.len]
    exact h.terminated
  reached := hs.ps ▸ h.reached
  idxAtRest := hs.idx ▸ h.idxAtRest

/-! ### The strip -/

/-- The place of the cursor in a frame of `n` LEDs, with `bits` bits of the working byte to go (invariant 5). -/
def FrameInside (n : Nat) (pos : BitVec 10) (bits : BitVec 4) : Prop :=
  bits.toNat ≤ 8 ∧ bits.toNat ≤ 8 * pos.toNat ∧ pos.toNat ≤ 3 * n ∧ 8 * pos.toNat < 24 * n + bits.toNat

/-- The clauses of `State.Inv` on the LEDs and the transmitter (invariants 4 and 5 of R39). -/
structure State.StripInv (s : State) : Prop where
  ledCount : s.leds.length = s.n
  ledsInv : ∀ l ∈ s.leds, l.Inv s.cfg
  frame : s.txBusy = true → FrameInside s.n s.txPos s.txBits

/-- `N` is 1 to 254 (R7). -/
theorem n_bounds (c : Config) : 1 ≤ c.n ∧ c.n ≤ 254 := by
  have := c.nPred.isLt
  unfold Config.n
  omega

/-- A frame begins inside itself (R252). -/
theorem frameInside_start (c : Config) : FrameInside c.n 0 0 := by
  have := n_bounds c
  unfold FrameInside
  change 0 ≤ 8 ∧ 0 ≤ 8 * 0 ∧ 0 ≤ 3 * c.n ∧ 8 * 0 < 24 * c.n + 0
  omega

/-- The refill takes the next byte of the snapshot, which is there, and does not wrap the cursor (R255). -/
theorem frameInside_refill {c : Config} {pos : BitVec 10} (h : FrameInside c.n pos 0) :
    FrameInside c.n (pos + 1) 8 := by
  obtain ⟨-, -, -, hlt⟩ := h
  have hn := n_bounds c
  have hpos : (pos + 1).toNat = pos.toNat + 1 := by
    rw [BitVec.toNat_add]
    change (pos.toNat + 1) % 1024 = pos.toNat + 1
    change 8 * pos.toNat < 24 * c.n + 0 at hlt
    omega
  unfold FrameInside
  rw [hpos]
  change 8 * pos.toNat < 24 * c.n + 0 at hlt
  change 8 ≤ 8 ∧ 8 ≤ 8 * (pos.toNat + 1) ∧ pos.toNat + 1 ≤ 3 * c.n ∧ 8 * (pos.toNat + 1) < 24 * c.n + 8
  omega

/-- One symbol out of a frame leaves it inside itself or over (R254, R256). -/
theorem frameInside_shiftOut {n : Nat} {pos : BitVec 10} {bits : BitVec 4} (h : FrameInside n pos bits)
    (hbits : bits ≠ 0) (hover : frameOver n pos (bits - 1) = false) : FrameInside n pos (bits - 1) := by
  obtain ⟨h8, hle, hpos, hlt⟩ := h
  have hb : bits.toNat ≠ 0 := fun h0 => hbits (BitVec.eq_of_toNat_eq h0)
  have hsub : (bits - 1).toNat = bits.toNat - 1 := by
    rw [BitVec.toNat_sub]
    change (16 - 1 + bits.toNat) % 16 = bits.toNat - 1
    omega
  have hrest : ¬ (bits.toNat - 1 = 0 ∧ pos.toNat = 3 * n) := by
    rintro ⟨h0, h3⟩
    have hz : bits - 1 = 0 := BitVec.eq_of_toNat_eq (hsub.trans h0)
    rw [frameOver, hz, h3] at hover
    simp at hover
  unfold FrameInside
  rw [hsub]
  omega

theorem shiftOut_stripInv {s : State} (h : s.StripInv) {pos : BitVec 10} {bits : BitVec 4} (sr : BitVec 8)
    (hin : FrameInside s.n pos bits) (hbits : bits ≠ 0) : (s.shiftOut pos bits sr).StripInv where
  ledCount := h.ledCount
  ledsInv := h.ledsInv
  frame := by
    intro hbusy
    have hgoesOn : (!frameOver s.n pos (bits - 1)) = true := hbusy
    have hover : frameOver s.n pos (bits - 1) = false := by simpa using hgoesOn
    exact frameInside_shiftOut hin hbits hover

theorem pulseStep_stripInv {s t : State} (h : s.StripInv) (ht : pulseStep s = .next t) : t.StripInv := by
  rcases pulseStep_eq_next ht with ⟨-, rfl⟩ | ⟨hbusy, hz, v, -, rfl⟩ | ⟨hbusy, hnz, rfl⟩
  · exact h
  · exact shiftOut_stripInv h v (frameInside_refill (hz ▸ h.frame hbusy)) (by decide)
  · exact shiftOut_stripInv h s.txSr (h.frame hbusy) hnz

theorem trigger_stripInv {s : State} (h : s.StripInv) : s.trigger.StripInv := by
  rcases trigger_cases s with ⟨-, heq⟩ | ⟨-, heq⟩ <;> rw [heq]
  · exact h
  · refine ⟨List.length_map _ |>.trans h.ledCount, ?_, fun _ => frameInside_start s.cfg⟩
    intro l hl
    obtain ⟨x, hx, rfl⟩ := List.mem_map.mp hl
    exact capture_inv (h.ledsInv x hx)

theorem tickLeds_stripInv {s : State} (h : s.StripInv) : s.tickLeds.StripInv := by
  refine ⟨(tickLeds_stripOnly s).ledCount.trans h.ledCount, ?_, h.frame⟩
  intro l hl
  obtain ⟨x, hx, rfl⟩ := List.mem_map.mp hl
  exact tick_inv (h.ledsInv x hx)

theorem ByteFrame.stripInv {s t : State} (hf : ByteFrame s t) (h : s.StripInv) : t.StripInv where
  ledCount := by
    rw [hf.leds.length, State.n, hf.cfg]
    exact h.ledCount
  ledsInv := by
    rw [hf.cfg]
    exact hf.leds.inv h.ledsInv
  frame := by
    rw [hf.txBusy, hf.txPos, hf.txBits, State.n, hf.cfg]
    exact h.frame

/-! ### The whole state -/

/-- The invariants are those of the parser and those of the strip. -/
theorem inv_iff {s : State} : s.Inv ↔ s.ParserInv ∧ s.StripInv := by
  constructor
  · intro h
    exact ⟨⟨⟨h.bufWf, h.bufInside, h.lenBound, h.written⟩, h.terminated, h.reached, h.idxAtRest⟩,
      ⟨h.ledCount, h.ledsInv, h.frame⟩⟩
  · rintro ⟨hp, hs⟩
    exact ⟨hp.buffer.wf, hp.buffer.inside, hp.buffer.lenBound, hp.buffer.written, hp.terminated, hp.reached,
      hs.ledCount, hs.ledsInv, hs.frame, hp.idxAtRest⟩

/-- No invariant speaks of the environment's side of the ports. -/
theorem inv_withPorts {s : State} (h : s.Inv) (q : List Instant) (k : Nat) (r : List Byte) (o : List Symbol) :
    State.Inv { s with inputs := q, choice := k, replyOut := r, stripOut := o } :=
  ⟨h.bufWf, h.bufInside, h.lenBound, h.written, h.terminated, h.reached, h.ledCount, h.ledsInv, h.frame, h.idxAtRest⟩

theorem resetWith_parserInv (cfg : Config) : (State.resetWith cfg).ParserInv where
  buffer :=
    { wf := rfl
      inside := fun c hc => absurd hc List.not_mem_nil
      lenBound := Nat.zero_le _
      written := fun i hi => absurd hi (Nat.not_lt_zero i) }
  terminated := by simp [State.resetWith]
  reached := by simp [State.resetWith]
  idxAtRest := rfl

theorem resetWith_stripInv (cfg : Config) : (State.resetWith cfg).StripInv where
  ledCount := List.length_replicate
  ledsInv := by
    intro l hl
    rw [List.eq_of_mem_replicate hl]
    exact afterReset_inv cfg
  frame := by simp [State.resetWith]

theorem resetWith_inv (cfg : Config) : (State.resetWith cfg).Inv :=
  inv_iff.mpr ⟨resetWith_parserInv cfg, resetWith_stripInv cfg⟩

/-! ### The events -/

theorem execReset_inv {s t : State} (ht : execReset s = .next t) : t.Inv := by
  cases ht
  exact inv_withPorts (resetWith_inv s.cfg) _ _ _ _

theorem execByteIn_inv {s t : State} {b : Byte} (h : s.Inv) (ht : execByteIn b s = .next t) : t.Inv := by
  obtain ⟨hp, hs⟩ := inv_iff.mp h
  have heffect : ByteEffect s (byteRow s.ps b) t := runByteRow_effect ht
  exact inv_iff.mpr ⟨heffect.parserInv (fun _ hrow => ps_of_byteRow_eq_ccOther hrow) hp,
    (runByteRow_frame ht).stripInv hs⟩

theorem execTimerTick_inv {s t : State} (h : s.Inv) (ht : execTimerTick s = .next t) : t.Inv := by
  obtain ⟨hp, hs⟩ := inv_iff.mp h
  cases ht
  exact inv_iff.mpr ⟨((trigger_stripOnly s).trans (tickLeds_stripOnly _)).parserInv hp,
    tickLeds_stripInv (trigger_stripInv hs)⟩

theorem execSclk_inv {s t : State} (h : s.Inv) (ht : execSclk s = .next t) : t.Inv := by
  obtain ⟨hp, hs⟩ := inv_iff.mp h
  exact inv_iff.mpr ⟨(pulseStep_stripOnly ht).parserInv hp, pulseStep_stripInv hs ht⟩

/-- Every event keeps every invariant (R39). -/
theorem exec_event_inv {s t : State} {e : Event} (h : s.Inv) (ht : exec e.instr s = .next t) : t.Inv := by
  cases e with
  | reset => exact execReset_inv ht
  | byteIn b => exact execByteIn_inv h ht
  | timerTick => exact execTimerTick_inv h ht
  | sclk => exact execSclk_inv h ht

theorem takeEvent_inv {s : State} (h : s.Inv) : (takeEvent s).2.Inv := by
  obtain ⟨q, k, heq, -⟩ := takeEvent_cases s
  rw [heq]
  exact inv_withPorts h q k s.replyOut s.stripOut

/-! ### What the invariants let a byte read -/

/-- The bytes below `len`. -/
def State.contents (s : State) : List Byte :=
  (List.range s.len.toNat).map fun i => (bufferRead s.buf i).getD 0

/-- Every byte below `len` can be read (R60). -/
theorem holds_contents {s : State} (h : s.BufferInv) : s.Holds s.contents := by
  have hlen : s.contents.length = s.len.toNat := by simp [State.contents]
  refine ⟨hlen.symm, fun i hi => readBuf_eq_ok.mpr ?_⟩
  have hcap := cap_bounds s.cfg
  have hbound := h.lenBound
  obtain ⟨v, hv⟩ := Option.isSome_iff_exists.mp (h.written i (by omega))
  exact ⟨by omega, by simp [State.contents, hv]⟩

/-- While a text is collected the buffer holds one, terminated (R65). -/
theorem holdsText_contents {s : State} (h : s.ParserInv) (hps : s.ps = .collectingCommand) :
    s.HoldsText s.contents := by
  have hholds := holds_contents h.buffer
  have hcap := cap_bounds s.cfg
  have hbound := h.buffer.lenBound
  refine ⟨hholds, readBuf_eq_ok.mpr ?_⟩
  rw [← hholds.1]
  exact ⟨by omega, h.terminated hps⟩

/-- A stored text is always dispatched (R137). -/
theorem dispatch_of_holdsText {s : State} {text : List Byte} (h : s.HoldsText text) : ∃ t, dispatch s = .next t := by
  have hrow := cmdRow_of_holdsText h s.cfg.z9Match
  unfold dispatch
  rw [hrow]
  rcases cmdRow_cases hrow with hc | hc | hc | hc <;> rw [hc] <;> exact ⟨_, rfl⟩

/-- A byte row completes: the closing CR if there is a text to read, Ctrl-Z if there is a message. -/
theorem runByteRow_completes {i : Instr} {s : State} (hf : i.format = .byte)
    (htext : i = .ccCr → ∃ text, s.HoldsText text) (hmsg : i = .cmSub → ∃ payload, s.Holds payload) :
    ∃ t, runByteRow i s = .next t := by
  cases i with
  | ccCr =>
    obtain ⟨text, h⟩ := htext rfl
    exact dispatch_of_holdsText (s := s.emit replyEcho) h
  | cmSub =>
    obtain ⟨payload, h⟩ := hmsg rfl
    obtain ⟨u, -, -, hu⟩ := runInterpreter_ok (messageChars_of_holds h)
    exact ⟨_, andThen_eq_next.mpr ⟨_, hu, rfl⟩⟩
  | cmCr => exact ⟨_, execCmCr_eq s⟩
  | cmOther b => exact ⟨_, execCmOther_eq b s⟩
  | _ => first | exact ⟨_, rfl⟩ | cases hf

/-- No byte faults where the invariants hold (R130, R275). -/
theorem execByteIn_completes {s : State} (h : s.Inv) (b : Byte) : ∃ t, execByteIn b s = .next t := by
  obtain ⟨hp, -⟩ := inv_iff.mp h
  refine runByteRow_completes (byteRow_format s.ps b).1 (fun hrow => ?_) fun _ => ⟨_, holds_contents hp.buffer⟩
  exact ⟨_, holdsText_contents hp (of_byteRow_eq_ccCr hrow).1⟩

end Sys2Proof.Machine
end

section
/-! PROOF. The statements on the state: what every instruction keeps, and what every event keeps. -/
namespace Sys2Proof.Machine

/-- Settles O45: the event taken is one of four, and each keeps the parser's invariants and the strip's. -/
theorem stepKeepsTheInvariants : Obligations.StepKeepsTheInvariants := by
  intro s t h ht
  have htaken := takeEvent_inv h
  rcases step_eq_next ht with ⟨-, rfl⟩ | ⟨e, -, he⟩
  · exact htaken
  · exact exec_event_inv htaken he

/-- Settles O18, by the frame of the strip commands (R202). -/
theorem stripCommandsTouchTargetsOnly : Obligations.StripCommandsTouchTargetsOnly := by
  intro i s hi
  obtain ⟨t, ht, hf⟩ := runStripRow_next hi s
  rw [runStripRow_exec hi] at ht
  exact ⟨t, ht, hf.same, hf.leds.cur, hf.leds.snap⟩

/-- Settles O36: the byte completes by the invariants, and its row bounds the reply and the frame. -/
theorem byteAlwaysCompletes : Obligations.ByteAlwaysCompletes := by
  intro b s h
  obtain ⟨t, ht⟩ := execByteIn_completes h b
  obtain ⟨out, hout, hlen⟩ := (runByteRow_effect ht).reply
  have hf : ByteFrame s t := runByteRow_frame ht
  exact ⟨t, out, ht, hout, hlen, hf.txBusy, hf.txPos, hf.txBits, hf.txSr, hf.stripOut, hf.leds.snap, hf.leds.cur⟩

/-- Settles O47: only the byte frame writes the buffer, and `RESET` empties it. -/
theorem bufferFormIsKept : Obligations.BufferFormIsKept := by
  intro i s t hwf h
  rcases exec_frame_cases h with hf | hf | rfl
  · exact hf.bufWf hwf
  · rw [hf.buf]
    exact hwf
  · cases h
    exact bufferWf_nil

/-- Settles O48: an instruction that changes `wdt_armed` is `RESET`, which clears it, or one that runs `Z9`. -/
theorem watchdogIsSticky : Obligations.WatchdogIsSticky := by
  refine ⟨fun i s t hi ha h => exec_keeps_armed hi ha h, fun i s t hu h ha => ?_⟩
  rcases exec_wdtArmed_cases h with hsame | hoff | harms
  · simp [hsame, hu] at ha
  · simp [hoff] at ha
  · exact harms

/-- Settles O49: a byte retargets and the serial clock leaves the LEDs, so no live colour moves (R23). -/
theorem onlyTicksMoveLiveColours : Obligations.OnlyTicksMoveLiveColours := by
  intro i s t htick htimer hreset h
  rcases exec_frame h with hf | hi | hi | hi | rfl
  · exact hf.leds.cur
  · exact absurd hi htick
  · exact absurd hi htimer
  · exact absurd hi hreset
  · rw [pulseStep_leds h]

/-- Settles O50: during a frame the trigger does nothing, and a tick moves no snapshot (R256, R260). -/
theorem frameIsNotCancelled : Obligations.FrameIsNotCancelled := by
  intro i s t hsclk hreset hbusy h
  rcases exec_frame h with hf | rfl | rfl | hi | hi
  · exact ⟨hf.txBusy.trans hbusy, hf.txPos, hf.txBits, hf.txSr, hf.stripOut, hf.leds.snap⟩
  · cases h
    exact ⟨hbusy, rfl, rfl, rfl, rfl, tickLeds_snap s⟩
  · have htrigger : s.trigger = s := by simp [State.trigger, hbusy]
    cases h
    rw [htrigger]
    exact ⟨hbusy, rfl, rfl, rfl, rfl, tickLeds_snap s⟩
  · exact absurd hi hreset
  · exact absurd hi hsclk

/-- Settles O53, by the frame of each instruction; `RESET` makes `N` LEDs anew. -/
theorem nothingIsCreatedOrDestroyed : Obligations.NothingIsCreatedOrDestroyed := by
  intro i s t h
  rcases exec_frame_cases h with hf | hf | rfl
  · exact ⟨hf.cfg, fun _ => hf.leds.length⟩
  · exact ⟨hf.cfg, fun _ => hf.ledCount⟩
  · cases h
    exact ⟨rfl, fun hn => List.length_replicate.trans hn.symm⟩

/-- Settles O37: the state after `RESET` is `State.resetWith`, with what the environment holds. -/
theorem resetFromAnyState : Obligations.ResetFromAnyState := by
  intro s
  have hcap : 0 < s.cfg.cap := by
    have := cap_bounds s.cfg
    omega
  exact ⟨_, rfl, rfl, rfl, readBuf_eq_ok.mpr ⟨hcap, unlistedByte_zero⟩, rfl, rfl, rfl, rfl, rfl, rfl, rfl, rfl, rfl,
    List.length_replicate, fun _ hl => List.eq_of_mem_replicate hl, rfl, rfl, rfl⟩

/-- Settles O44: after reset the buffer is empty, every LED is at rest and no frame is in progress. -/
theorem resetMeetsTheInvariants : Obligations.ResetMeetsTheInvariants :=
  ⟨resetWith_inv, resetWith_inv build⟩

end Sys2Proof.Machine
end

section
/-! PROOF. The decoder and the encoder against each other (30_encoding.md): every row with a code of its own
is selected by that code, and a default row by what no other row of its level and state takes (R107). -/
namespace Sys2Proof.Machine

/-! ### Default rows -/

/-- A byte that the default row of a state admits is named by no other row of the state (R107). -/
theorem byteRow_stateOther (ps : ParserState) :
    ∀ b : Byte, (stateOther ps b).wf = true → byteRow ps b = stateOther ps b := by
  cases ps <;> decide

/-- A character that `HEXOTHER` admits is none of the sixteen (R96). -/
theorem hexRow_hexOther : ∀ b : Byte, (Instr.hexOther b).wf = true → hexRow b = .hexOther b := by decide

/-- A character that `SKIP_OTHER` admits has no row of its own (R101). -/
theorem stripRow_skipOther : ∀ ch : Septet, (Instr.skipOther ch).wf = true → stripRow ch = .skipOther ch := by
  decide

/-! ### The decoder, level by level -/

theorem decode_stateOther (z : Z9Match) (ps : ParserState) {b : Byte} (h : (stateOther ps b).wf = true) :
    decode z (.byte ps.code b) = .ok (stateOther ps b) := by
  rw [decode_byte_code, byteRow_stateOther ps b h]

/-- A character that reaches the unpacker selects its row (R110, R179). -/
theorem decode_hex (z : Z9Match) {c : Byte} (hsub : c ≠ byteSUB) (hesc : c ≠ byteESC) :
    decode z (.hex c) = .ok (hexRow c) := by
  simp only [decode, if_neg hsub, if_neg hesc]

theorem decode_hex_eq_ok {z : Z9Match} {c : Byte} {i : Instr} (h : decode z (.hex c) = .ok i) :
    c ≠ byteSUB ∧ c ≠ byteESC ∧ i = hexRow c := by
  simp only [decode] at h
  split at h
  · cases h
  · split at h
    · cases h
    · next hsub hesc => exact ⟨hsub, hesc, (Except.ok.inj h).symm⟩

/-- `HEXOTHER` admits neither of the two characters that never reach the unpacker (R179). -/
theorem decode_hexOther (z : Z9Match) {b : Byte} (h : (Instr.hexOther b).wf = true) :
    decode z (.hex b) = .ok (.hexOther b) := by
  have hne : b ≠ byteSUB ∧ b ≠ byteESC := by
    constructor <;> rintro rfl <;> revert h <;> decide
  rw [decode_hex z hne.1 hne.2, hexRow_hexOther b h]

theorem decode_byte_eq_ok {z : Z9Match} {c : BitVec 3} {b : Byte} {i : Instr} (h : decode z (.byte c b) = .ok i) :
    ∃ ps, i = byteRow ps b := by
  simp only [decode] at h
  split at h
  · next ps _ => exact ⟨ps, (Except.ok.inj h).symm⟩
  · cases h

theorem decode_cmd_eq_ok {z : Z9Match} {text : List Byte} {i : Instr} (h : decode z (.cmd text) = .ok i) :
    cmdRow z text = some i := by
  simp only [decode] at h
  split at h
  · next hrow => rw [hrow, Except.ok.inj h]
  · cases h

/-! ### Rows are well formed -/

theorem hexRow_wf : ∀ c : Byte, c ≠ byteSUB → c ≠ byteESC → (hexRow c).wf = true := by decide

theorem stripRow_wf : ∀ ch : Septet, (stripRow ch).wf = true := by decide

/-- The decoder gives no default row a code that has a row of its own (R107). -/
theorem wf_of_decode {z : Z9Match} {c : Code} {i : Instr} (h : decode z c = .ok i) : i.wf = true := by
  cases c with
  | event e =>
    obtain rfl := Except.ok.inj h
    cases e <;> rfl
  | byte state b =>
    obtain ⟨ps, rfl⟩ := decode_byte_eq_ok h
    exact (byteRow_format ps b).2
  | cmd text => rcases cmdRow_cases (decode_cmd_eq_ok h) with rfl | rfl | rfl | rfl <;> rfl
  | hex c =>
    obtain ⟨hsub, hesc, rfl⟩ := decode_hex_eq_ok h
    exact hexRow_wf c hsub hesc
  | strip ch =>
    obtain rfl := Except.ok.inj h
    exact stripRow_wf ch
  | fade f => cases f <;> (obtain rfl := Except.ok.inj h; rfl)

/-! ### Decode and encode -/

/-- The code of a well-formed instruction decodes to it, for both readings of `Z9_MATCH`. -/
theorem decode_encode (z : Z9Match) {i : Instr} (h : i.wf = true) : decode z (encode i) = .ok i := by
  cases i with
  | idleOther b => exact decode_stateOther z .idle h
  | acrOther b => exact decode_stateOther z .awaitingCRAfterPrompt h
  | wlfOther b => exact decode_stateOther z .waitingForLineFeed h
  | expaOther b => exact decode_stateOther z .expectingA h
  | exptOther b => exact decode_stateOther z .expectingT h
  | ccOther b => exact decode_stateOther z .collectingCommand h
  | cmOther b => exact decode_stateOther z .collectingMessage h
  | hexOther b => exact decode_hexOther z h
  | skipOther ch => exact congrArg Except.ok (stripRow_skipOther ch h)
  | z9 | otherCmd => cases z <;> rfl
  | _ => rfl

/-- Settles O41: a row with a code of its own decodes by the tables, a default row because no other takes its code. -/
theorem decodeOfEncode : Obligations.DecodeOfEncode := fun z _ h => decode_encode z h

/-- Settles O42: the decoder's rows are well formed, and a well-formed instruction's code decodes to it. -/
theorem decodedInstructionsAreWellFormed : Obligations.DecodedInstructionsAreWellFormed := by
  intro z c i h
  have hwf := wf_of_decode h
  exact ⟨hwf, decode_encode z hwf⟩

/-- Settles O35: the byte's code decodes to the row that the byte runs. -/
theorem byteRunsItsRow : Obligations.ByteRunsItsRow := fun b s =>
  ⟨byteIn_exec b s, byteRow s.ps b, decode_byte_code _ _ _, rfl, (byteRow_format s.ps b).2⟩

/-- Settles O43: each level's rows are of its own format, and no parser state has code 7. -/
theorem noCodeIsIllegal : Obligations.NoCodeIsIllegal :=
  ⟨fun z ps b => ⟨byteRow ps b, decode_byte_code z ps b, (byteRow_format ps b).1⟩,
    fun z c hsub hesc => ⟨hexRow c, decode_hex z hsub hesc, hexRow_format c⟩,
    fun _ ch => ⟨stripRow ch, rfl, stripRow_format ch⟩,
    fun _ _ => rfl⟩

/-- Settles O40: each code selects its row of the tables by evaluation. -/
theorem sampleCodesDecode : Obligations.SampleCodesDecode := by
  unfold Obligations.SampleCodesDecode
  decide

/-! ### The closing CR -/

/-- Dispatch on a stored text runs the command that the text selects (R137, R141). -/
theorem dispatch_eq_exec {s : State} {text : List Byte} (h : s.HoldsText text) :
    dispatch s = exec (commandOf s.cfg.z9Match text) s := by
  simp only [dispatch, cmdRow_of_holdsText h, runCmdRow_exec (commandOf_format _ _)]

/-- Settles O8: the closing CR echoes and dispatches, and the dispatch on a stored text is the command it selects. -/
theorem closingCrRunsTheCommand : Obligations.ClosingCrRunsTheCommand := by
  refine ⟨rfl, fun s text h => ?_⟩
  have hecho : (s.emit replyEcho).HoldsText text := h
  obtain ⟨t, ht⟩ := dispatch_of_holdsText hecho
  have hcommand : exec (commandOf s.cfg.z9Match text) (s.emit replyEcho) = .next t := by
    rw [← ht, dispatch_eq_exec hecho]
    rfl
  exact ⟨t, ht, hcommand⟩

end Sys2Proof.Machine
end

section
/-! PROOF. The septets of a message (42_septet_interpreter.md): the sliding window of R188 and R189 against the
bit positions of R99, and the packing of R121 against both. -/
namespace Sys2Proof.Machine

/-! ### The sliding window -/

/-- The window when `i` characters of the data `d` have been produced: every eighth character takes no byte, so
`i - i / 8` bytes are gone, and the carry holds the `i % 8` bits of the last of them that are not yet out (R188). -/
structure WindowAt (d : List Byte) (i : Nat) (w : Window) : Prop where
  src : w.src = d.drop (i - i / 8)
  consumed : i - i / 8 ≤ d.length
  bits : w.bits.toNat = 7 - i % 8
  carry : ∀ b, b < 7 → w.carry.getLsbD b = (decide (b < i % 8) && dataBit d (7 * i + b))

theorem windowAt_start (d : List Byte) : WindowAt d 0 ⟨d, 7, 0⟩ :=
  ⟨rfl, Nat.zero_le _, rfl, fun _ _ => by simp⟩

/-- Only before the eighth character of a group are no bits of a byte to go (R188). -/
theorem WindowAt.bits_ne_zero {d : List Byte} {i : Nat} {w : Window} (h : WindowAt d i w) (hi : i % 8 ≠ 7) :
    w.bits ≠ 0 := by
  intro h0
  have hbits : 0 = 7 - i % 8 := (congrArg BitVec.toNat h0).symm.trans h.bits
  omega

/-- The eighth character of a group is the carry, whole, and the window starts afresh (R189). -/
theorem window_char_carry {d : List Byte} {i : Nat} {w : Window} (h : WindowAt d i w) (hi : i % 8 = 7) :
    7 * (i + 1) ≤ 8 * d.length ∧ ∃ w', w.char = some (septetAt d i, w') ∧ WindowAt d (i + 1) w' := by
  have hconsumed := h.consumed
  have hbits : w.bits = 0 := BitVec.eq_of_toNat_eq (by rw [h.bits, hi]; rfl)
  have hchar : w.carry = septetAt d i := by
    refine septet_ext fun b hb => ?_
    rw [h.carry b hb, septetAt_getLsbD d i b hb, hi]
    simp [hb]
  refine ⟨by omega, ⟨w.src, 7, 0⟩, by rw [Window.char, if_pos hbits, hchar], ?_, by omega, ?_, fun b _ => ?_⟩
  · rw [h.src]
    congr 1
    omega
  · change 7 = 7 - (i + 1) % 8
    omega
  · have hmod : (i + 1) % 8 = 0 := by omega
    simp [hmod]

/-- Bit `b` of byte `j` of the data. -/
theorem dataBit_of_getElem {d : List Byte} {j b n : Nat} {cur : Byte} (hcur : d[j]? = some cur) (hb : b < 8)
    (hn : n = 8 * j + b) : dataBit d n = cur.getLsbD b := by
  unfold dataBit dataByte
  rw [show n / 8 = j by omega, show n % 8 = b by omega, List.getD_eq_getElem?_getD, hcur]
  rfl

/-- Every other character is the carry below and bits of the next byte above; what is left of that byte is the
new carry (R189). -/
theorem window_char_byte {d : List Byte} {i : Nat} {w : Window} (h : WindowAt d i w) (hi : i % 8 ≠ 7)
    {cur : Byte} (hcur : d[i - i / 8]? = some cur) :
    ∃ w', w.char = some (septetAt d i, w') ∧ WindowAt d (i + 1) w' := by
  obtain ⟨hlt, hget⟩ := List.getElem?_eq_some_iff.mp hcur
  have hsrc : w.src = cur :: d.drop (i + 1 - (i + 1) / 8) := by
    rw [h.src, List.drop_eq_getElem_cons hlt, hget]
    congr 2
    omega
  have hchar : ((cur.setWidth 16 : BitVec 16) <<< (i % 8) ||| w.carry.setWidth 16).setWidth 7 = septetAt d i := by
    refine septet_ext fun b hb => ?_
    rw [septetAt_getLsbD d i b hb]
    simp only [BitVec.getLsbD_setWidth, BitVec.getLsbD_or, BitVec.getLsbD_shiftLeft, h.carry b hb]
    have hb16 : b < 16 := by omega
    by_cases hlow : b < i % 8
    · simp [hlow, hb, hb16]
    · rw [dataBit_of_getElem hcur (b := b - i % 8) (by omega) (by omega)]
      simp [hlow, hb, hb16, show b - i % 8 < 16 by omega]
  refine ⟨⟨d.drop (i + 1 - (i + 1) / 8), w.bits - 1, (cur >>> (7 - i % 8)).setWidth 7⟩, ?_, rfl, by omega, ?_, ?_⟩
  · rw [Window.char, if_neg (h.bits_ne_zero hi), hsrc]
    simp only [h.bits, show 7 - (7 - i % 8) = i % 8 by omega, hchar]
  · have hsub : (w.bits - 1).toNat = w.bits.toNat - 1 := BitVec.toNat_sub_of_le (by
      have := h.bits
      change 1 ≤ w.bits.toNat
      omega)
    have := h.bits
    change (w.bits - 1).toNat = _
    omega
  · intro b hb
    simp only [BitVec.getLsbD_setWidth, BitVec.getLsbD_ushiftRight, hb, decide_true, Bool.true_and]
    by_cases hlow : b < (i + 1) % 8
    · rw [dataBit_of_getElem hcur (b := 7 - i % 8 + b) (by omega) (by omega)]
      simp [hlow]
    · rw [BitVec.getLsbD_of_ge _ _ (by omega)]
      simp [hlow]

/-- While 7 bits of data are left the window gives the next character, and then none (R189, R190). -/
theorem window_char {d : List Byte} {i : Nat} {w : Window} (h : WindowAt d i w) :
    (7 * (i + 1) ≤ 8 * d.length ∧ ∃ w', w.char = some (septetAt d i, w') ∧ WindowAt d (i + 1) w') ∨
    (8 * d.length < 7 * (i + 1) ∧ w.char = none) := by
  by_cases hi : i % 8 = 7
  · exact .inl (window_char_carry h hi)
  · have hconsumed := h.consumed
    by_cases hleft : i - i / 8 < d.length
    · exact .inl ⟨by omega, window_char_byte h hi (List.getElem?_eq_getElem hleft)⟩
    · refine .inr ⟨by omega, ?_⟩
      have hsrc : w.src = [] := by
        rw [h.src, List.drop_eq_nil_iff]
        omega
      rw [Window.char, if_neg (h.bits_ne_zero hi), hsrc]

/-- From `i` characters on the window gives the characters that are left, at most `k` of them. -/
theorem window_chars {d : List Byte} (k : Nat) {i : Nat} {w : Window} (h : WindowAt d i w) :
    Window.chars k w = (List.range' i (min k (8 * d.length / 7 - i))).map (septetAt d) := by
  induction k generalizing i w with
  | zero => simp [Window.chars]
  | succ k ih =>
    rcases window_char h with ⟨hroom, w', hchar, hnext⟩ | ⟨hover, hchar⟩
    · have hcount : min (k + 1) (8 * d.length / 7 - i) = min k (8 * d.length / 7 - (i + 1)) + 1 := by omega
      rw [hcount, List.range'_succ, List.map_cons, ← ih hnext]
      simp only [Window.chars, hchar]
    · have hcount : min (k + 1) (8 * d.length / 7 - i) = 0 := by omega
      rw [hcount]
      simp only [Window.chars, hchar, List.range'_zero, List.map_nil]

/-- Settles O24: the window's state after `i` characters is `WindowAt`, from which each next character follows. -/
theorem slidingWindowGivesTheSeptets : Obligations.SlidingWindowGivesTheSeptets := by
  intro d count
  rw [slidingSeptets, window_chars count (windowAt_start d), septets, septetCount, List.range_eq_range', Nat.sub_zero]

/-! ### Packing -/

/-- Packed data gives, with the length of its text as count, as many characters as the text has (R191). -/
theorem septetCount_packSeptets (text : List Septet) :
    septetCount text.length (packSeptets text).length = text.length := by
  simp only [septetCount, packSeptets, List.length_map, List.length_range]
  omega

/-- Each character of packed data is that of the text (R191). -/
theorem septetAt_packSeptets (text : List Septet) {i : Nat} (hi : i < text.length) :
    septetAt (packSeptets text) i = text[i] := by
  refine septet_ext fun b hb => ?_
  calc (septetAt (packSeptets text) i).getLsbD b
      = dataBit (packSeptets text) (7 * i + b) := septetAt_getLsbD _ _ _ hb
    _ = (packedNumber text).testBit (7 * i + b) := packSeptets_dataBit _ _ (by omega)
    _ = (text.getD i 0).getLsbD b := packedNumber_testBit _ _ _ hb
    _ = text[i].getLsbD b := by rw [List.getD_eq_getElem _ _ hi]

/-- Decoding packed data gives its text back (R191). -/
theorem septets_packSeptets (text : List Septet) : septets (packSeptets text) text.length = text := by
  refine List.ext_getElem (by rw [septets_length, septetCount_packSeptets]) fun i _ hi => ?_
  simp only [septets, List.getElem_map, List.getElem_range]
  exact septetAt_packSeptets text hi

/-- Settles O25: character by character, through the number that R121 packs. -/
theorem septetRoundTrip : Obligations.SeptetRoundTrip := septets_packSeptets

end Sys2Proof.Machine
end

section
/-! PROOF. A whole frame (44_strip_transmitter.md): what the transmitter's registers and the strip output hold
after each serial clock of it (R105, R259). -/
namespace Sys2Proof.Machine

/-! ### The bits of a frame -/

/-- Byte `k` of the live colours: LED `1 + k / 3`, channel `k % 3` (R74, R105). -/
def State.liveByte (s : State) (k : Nat) : Byte :=
  match s.led (1 + k / 3) with
  | none => 0
  | some l => l.cur.get (Fin.ofNat 3 (k % 3))

theorem liveByte_of_led {s : State} {k : Nat} {l : Led} (h : s.led (1 + k / 3) = some l) :
    s.liveByte k = l.cur.get (Fin.ofNat 3 (k % 3)) := by
  simp only [State.liveByte, h]

/-- Symbol `q` of a frame: bit `7 - q % 8` of byte `q / 8` of the live colours (R105, R257). -/
def State.frameSymbol (s : State) (q : Nat) : Symbol := symbolOf ((s.liveByte (q / 8)).getLsbD (7 - q % 8))

/-- Where the snapshot is that of the live colours of `s`, each byte of a frame is that of the live colours. -/
theorem snapByte_eq_liveByte {s u : State} (hsnap : u.leds.map Led.snap = s.leds.map Led.cur)
    (hlen : s.leds.length = s.n) {k : Nat} (hk : k < 3 * s.n) : u.snapByte k = some (s.liveByte k) := by
  have hlt : k / 3 < s.leds.length := by omega
  have hled : s.led (1 + k / 3) = some s.leds[k / 3] := by
    rw [Nat.add_comm]
    exact List.getElem?_eq_getElem hlt
  have hulen : u.leds.length = s.leds.length := by simpa using congrArg List.length hsnap
  have huled : u.led (1 + k / 3) = some (u.leds[k / 3]'(by omega)) := by
    rw [Nat.add_comm]
    exact List.getElem?_eq_getElem (by omega)
  have hcolour : (u.leds[k / 3]'(by omega)).snap = s.leds[k / 3].cur := by
    have hget := congrArg (fun l => l[k / 3]?) hsnap
    simpa [List.getElem?_eq_getElem hlt, show k / 3 < u.leds.length by omega] using hget
  simp only [State.snapByte, huled, liveByte_of_led hled, hcolour]

/-! ### Inside a frame -/

/-- The transmitter when `j` symbols are out of the frame that was triggered in state `s`: the snapshot is the
live colours of `s`, and the working byte, where it is in use, has lost its first `j % 8` bits (R254, R256). -/
structure FrameAt (s : State) (j : Nat) (u : State) : Prop where
  n : u.n = s.n
  snap : u.leds.map Led.snap = s.leds.map Led.cur
  busy : u.txBusy = decide (j < 24 * s.n)
  pos : u.txPos.toNat = (j + 7) / 8
  bits : u.txBits.toNat = (8 - j % 8) % 8
  working : j % 8 ≠ 0 → u.txSr = s.liveByte (j / 8) <<< (j % 8)
  out : u.stripOut = s.stripOut ++ (List.range j).map s.frameSymbol

/-- The timer event of a state with no frame in progress begins one (R252). -/
theorem frameAt_timerTick {s : State} (hidle : s.txBusy = false) :
    exec .timerTick s = .next s.trigger.tickLeds ∧ FrameAt s 0 s.trigger.tickLeds := by
  have htrigger : s.trigger = (s.setLeds (s.leds.map Led.capture)).setTx true 0 0 s.txSr := by
    simp [State.trigger, hidle]
  have hn := n_bounds s.cfg
  have hpos : 0 < 24 * s.n := by
    change 0 < 24 * s.cfg.n
    omega
  refine ⟨rfl, ?_⟩
  rw [htrigger]
  exact ⟨rfl, by simp [Function.comp_def], by simpa [State.tickLeds] using hpos, rfl, rfl, fun h => absurd rfl h,
    by simp [State.tickLeds]⟩

/-- One symbol out: the top bit of the working byte, with `bits` bits of byte `j / 8` to go (R254, R256, R257). -/
theorem frameAt_shiftOut {s u : State} {j : Nat} (h : FrameAt s j u) (hj : j < 24 * s.n) {pos : BitVec 10}
    {bits : BitVec 4} (hpos : pos.toNat = j / 8 + 1) (hbits : bits.toNat = 8 - j % 8) :
    FrameAt s (j + 1) (u.shiftOut pos bits (s.liveByte (j / 8) <<< (j % 8))) := by
  have hsub : (bits - 1).toNat = 7 - j % 8 := by
    rw [BitVec.toNat_sub_of_le (by change 1 ≤ bits.toNat; omega), hbits]
    change 8 - j % 8 - 1 = _
    omega
  have hzero : bits - 1 = 0 ↔ j % 8 = 7 := by
    rw [← BitVec.toNat_inj, hsub]
    change 7 - j % 8 = 0 ↔ _
    omega
  have hover : frameOver s.n pos (bits - 1) = decide (¬ j + 1 < 24 * s.n) := by
    rw [frameOver, ← Bool.decide_and, hpos]
    exact decide_eq_decide.mpr (by rw [hzero]; omega)
  have hsymbol : (s.liveByte (j / 8) <<< (j % 8)).msb = (s.liveByte (j / 8)).getLsbD (7 - j % 8) := by
    rw [BitVec.msb_eq_getLsbD_last, BitVec.getLsbD_shiftLeft]
    simp [show ¬ 7 < j % 8 by omega]
  refine ⟨h.n, h.snap, ?_, ?_, ?_, fun hmid => ?_, ?_⟩
  · change (!frameOver u.n pos (bits - 1)) = _
    rw [h.n, hover, decide_not, Bool.not_not]
  · change pos.toNat = _
    omega
  · change (bits - 1).toNat = _
    omega
  · change s.liveByte (j / 8) <<< (j % 8) <<< 1 = _
    rw [← BitVec.shiftLeft_add, show (j + 1) / 8 = j / 8 by omega, show (j + 1) % 8 = j % 8 + 1 by omega]
  · change u.stripOut ++ [symbolOf _] = _
    rw [h.out, hsymbol, List.range_succ, List.map_append, List.append_assoc]
    rfl

/-- A serial clock inside a frame puts out its next symbol (R254, R255). -/
theorem frameAt_sclk {s u : State} {j : Nat} (hlen : s.leds.length = s.n) (h : FrameAt s j u) (hj : j < 24 * s.n) :
    ∃ v, exec .sclk u = .next v ∧ FrameAt s (j + 1) v := by
  have hbusy : u.txBusy = true := by simp [h.busy, hj]
  have hpos := h.pos
  have hbits := h.bits
  change ∃ v, pulseStep u = .next v ∧ FrameAt s (j + 1) v
  by_cases hrefill : j % 8 = 0
  · have hzero : u.txBits = 0 := BitVec.eq_of_toNat_eq (by rw [hbits, hrefill]; rfl)
    have hbyte : u.snapByte u.txPos.toNat = some (s.liveByte (j / 8)) := by
      rw [hpos, show (j + 7) / 8 = j / 8 by omega]
      exact snapByte_eq_liveByte h.snap hlen (by omega)
    have hsucc : (u.txPos + 1).toNat = j / 8 + 1 := by
      have hn : s.n ≤ 254 := (n_bounds s.cfg).2
      rw [BitVec.toNat_add]
      change (u.txPos.toNat + 1) % 1024 = _
      omega
    refine ⟨u.shiftOut (u.txPos + 1) 8 (s.liveByte (j / 8)), by rw [pulseStep, if_pos hbusy, if_pos hzero, hbyte], ?_⟩
    simpa [hrefill] using frameAt_shiftOut h hj hsucc (bits := 8) (by rw [hrefill]; rfl)
  · have hnonzero : u.txBits ≠ 0 := by
      intro h0
      have : 0 = (8 - j % 8) % 8 := (congrArg BitVec.toNat h0).symm.trans hbits
      omega
    refine ⟨u.shiftOut u.txPos u.txBits u.txSr, by rw [pulseStep, if_pos hbusy, if_neg hnonzero], ?_⟩
    rw [h.working hrefill]
    exact frameAt_shiftOut h hj (by omega) (by omega)

/-- The trigger and `j` serial clocks, no more than the frame has symbols, put out the first `j` of them (R259). -/
theorem execAll_frame {s : State} (hidle : s.txBusy = false) (hlen : s.leds.length = s.n) {j : Nat}
    (hj : j ≤ 24 * s.n) :
    ∃ u, execAll (.timerTick :: List.replicate j .sclk) s = .next u ∧ FrameAt s j u := by
  induction j with
  | zero =>
    obtain ⟨htick, hframe⟩ := frameAt_timerTick hidle
    exact ⟨_, by simp [htick], hframe⟩
  | succ j ih =>
    obtain ⟨u, hu, hframe⟩ := ih (by omega)
    obtain ⟨v, hv, hnext⟩ := frameAt_sclk hlen hframe (by omega)
    refine ⟨v, ?_, hnext⟩
    rw [List.replicate_succ', ← List.cons_append, execAll_append, hu]
    simp [hv]

/-- Settles O34, from the state of the transmitter after each serial clock of the frame. -/
theorem frameIsTheSnapshot : Obligations.FrameIsTheSnapshot := by
  intro s hidle hlen
  constructor
  · intro j hj
    obtain ⟨u, hu, hframe⟩ := execAll_frame hidle hlen (Nat.le_of_lt hj)
    exact ⟨u, hu, by simp [hframe.busy, hj]⟩
  · obtain ⟨t, ht, hframe⟩ := execAll_frame hidle hlen (Nat.le_refl (24 * s.n))
    refine ⟨t, ht, by simp [hframe.busy], by simp [hframe.out], by simp [hframe.out], fun q l hq hl => ?_⟩
    have hbyte : s.liveByte (q / 8) = l.cur.get (Fin.ofNat 3 (q / 8 % 3)) :=
      liveByte_of_led (by rwa [Nat.div_div_eq_div_mul])
    rw [hframe.out, List.getElem?_append_right (Nat.le_add_right _ _), Nat.add_sub_cancel_left, List.getElem?_map,
      List.getElem?_range hq, ← hbyte]
    rfl

end Sys2Proof.Machine
end

section
/-! PROOF. A whole message (R152 (c)): the line that asks for it, its hex text, and the Ctrl-Z that runs it. -/
namespace Sys2Proof.Machine

/-! ### A command line (R93) -/

/-- CR, LF, `A`, `T` in `Idle`: one echo, and an empty text (R132, R134 to R136). -/
theorem execAll_lineStart {s : State} (hps : s.ps = .idle) :
    execAll (byteEvents [byteCR, byteLF, byteA, byteT]) s
      = .next ((s.emit replyEcho).bufClear.setPs .collectingCommand) := by
  have hcr : exec (.byteIn byteCR) s = .next ((s.emit replyEcho).setPs .waitingForLineFeed) := by
    rw [byteIn_exec, hps]
    rfl
  change andThen (exec (.byteIn byteCR) s) (execAll (byteEvents [byteLF, byteA, byteT])) = _
  rw [hcr]
  rfl

/-- A whole line with a text that fits runs the command of its text, after two echoes, on a buffer that holds it. -/
theorem execAll_commandLine {s : State} {text : List Byte} (hps : s.ps = .idle) (hwf : s.buf.wf = true)
    (hplain : ∀ b ∈ text, b ≠ 0x0D ∧ b ≠ 0x1B) (hfit : text.length < s.cfg.cap) :
    ∃ t, execAll (byteEvents (commandLine text)) s = exec (commandOf s.cfg.z9Match text) t ∧
      t = { s with buf := t.buf, len := t.len, ps := .collectingCommand,
                   replyOut := s.replyOut ++ replyEcho ++ replyEcho } ∧
      t.buf.wf = true ∧ t.HoldsText text := by
  have hempty : ((s.emit replyEcho).bufClear.setPs .collectingCommand).HoldsText [] :=
    holdsText_bufClear (s := s.emit replyEcho) hwf
  have hroom : ([] : List Byte).length + text.length ≤ s.cfg.cap - 1 := by
    rw [List.length_nil]
    omega
  obtain ⟨t, ht, hsame, htwf, hholds⟩ := execAll_text (s := (s.emit replyEcho).bufClear.setPs .collectingCommand) rfl
    (bufClear_wf hwf) hempty hplain hroom
  have htext : (t.emit replyEcho).HoldsText text := hholds
  have hcfg : t.cfg = s.cfg := by rw [hsame]; rfl
  have hcr : exec (.byteIn byteCR) t = exec (commandOf s.cfg.z9Match text) (t.emit replyEcho) := by
    have hpst : t.ps = .collectingCommand := by rw [hsame]; rfl
    rw [byteIn_exec, hpst, ← hcfg]
    exact dispatch_eq_exec htext
  refine ⟨t.emit replyEcho, ?_, by rw [hsame]; rfl, htwf, htext⟩
  have hline : byteEvents (commandLine text)
      = byteEvents [byteCR, byteLF, byteA, byteT] ++ (byteEvents text ++ [.byteIn byteCR]) := by
    simp [byteEvents, commandLine]
  rw [hline, execAll_append, execAll_lineStart hps, andThen_next, execAll_append, ht, andThen_next, execAll_cons, hcr]
  cases exec (commandOf s.cfg.z9Match text) (t.emit replyEcho) <;> rfl

/-- A line that begins `+CMGS=` ends in an empty message (R142). -/
theorem execAll_cmgsLine {s : State} {text : List Byte} (hps : s.ps = .idle) (hwf : s.buf.wf = true)
    (hplain : ∀ b ∈ text, b ≠ 0x0D ∧ b ≠ 0x1B) (hfit : text.length < s.cfg.cap) (hcmgs : textCmgs <+: text) :
    ∃ t, execAll (byteEvents (commandLine text)) s = .next t ∧
      t = { s with buf := t.buf, len := 0, haveHi := false, hiNib := 0, ps := .collectingMessage,
                   replyOut := s.replyOut ++ replyEcho ++ replyEcho ++ replyPrompt } ∧
      t.buf.wf = true ∧ t.Holds [] := by
  obtain ⟨u, hu, hsame, huwf, -⟩ := execAll_commandLine hps hwf hplain hfit
  have hcommand : commandOf s.cfg.z9Match text = .cmgs := if_pos hcmgs
  refine ⟨((u.emit replyPrompt).bufClear.setNibble false 0).setPs .collectingMessage, ?_, ?_, bufClear_wf huwf,
    holds_bufClear (s := u.emit replyPrompt)⟩
  · rw [hu, hcommand]
    rfl
  · rw [hsame]
    rfl

/-! ### The hex text of a payload (R121, R181) -/

/-- The hex text of a payload that fits leaves exactly the payload in the buffer, and replies nothing. -/
theorem execAll_hexText {s : State} {payload : List Byte} (hps : s.ps = .collectingMessage)
    (hwf : s.buf.wf = true) (heven : s.haveHi = false) (hempty : s.Holds []) (hfit : payload.length ≤ s.cfg.cap - 1) :
    ∃ t, execAll (byteEvents (hexText payload)) s = .next t ∧
      t = { s with buf := t.buf, len := t.len, haveHi := t.haveHi, hiNib := t.hiNib } ∧ t.Holds payload := by
  obtain ⟨t, ht, hsame, -, hholds, hreply⟩ := execAll_chars hps hwf heven hempty (Nat.zero_le _)
    fun c hc => (hexText_plain hc).2
  rw [List.nil_append, pairBytes_hexText, List.take_of_length_le hfit] at hholds
  rw [hreply fun c hc => (hexText_plain hc).1] at hsame
  exact ⟨t, ht, hsame, hholds⟩

/-- Where the count stands as far in as `ENV_SKIP` and the address length say, the bytes after it are the septet
data (R98, R186). -/
theorem payloadChars_append {cfg : Config} {head data : List Byte} {count : Byte} (hfour : 4 ≤ head.length)
    (hhead : head.length = ((head.getD 3 0).toNat + 1) / 2 + cfg.envSkip) :
    payloadChars cfg (head ++ count :: data) = septets data count.toNat := by
  have halen : (head ++ count :: data).getD 3 0 = head.getD 3 0 := List.getD_append _ _ _ _ (by omega)
  have hcount : (head ++ count :: data).getD head.length 0 = count := by simp
  have hdata : (head ++ count :: data).drop (head.length + 1) = data := by simp
  have hlong : ¬ ((head ++ count :: data).length < 4 ∨ (head ++ count :: data).length ≤ head.length) := by
    simp only [List.length_append, List.length_cons]
    omega
  simp only [payloadChars, halen, ← hhead, if_neg hlong, hcount, hdata]

/-- The payload of R121 around a text gives the characters of the text (R186, R191). -/
theorem payloadChars_envelope {cfg : Config} {front : Byte × Byte × Byte} {alen : Byte} {middle : List Byte}
    {text : List Septet} (hskip : cfg.envSkip = 7) (hmiddle : middle.length = (alen.toNat + 1) / 2 + 3)
    (htext : text.length ≤ 255) : payloadChars cfg (envelope front alen middle text) = text := by
  have hsplit : envelope front alen middle text
      = (front.1 :: front.2.1 :: front.2.2 :: alen :: middle) ++ BitVec.ofNat 8 text.length :: packSeptets text := by
    simp [envelope]
  have hcount : (BitVec.ofNat 8 text.length).toNat = text.length := by
    rw [BitVec.toNat_ofNat]
    omega
  rw [hsplit, payloadChars_append (by simp), hcount, septets_packSeptets]
  simp only [List.length_cons, List.getD_cons_succ, List.getD_cons_zero, hskip]
  omega

/-! ### Strip commands see the strip alone (R192, R202) -/

/-- `r` with what a strip command can see or change taken from `s`. -/
def State.withStrip (r s : State) : State :=
  { r with cfg := s.cfg, scratch := s.scratch, leds := s.leds, idx := s.idx }

/-- A strip command does the same to the strip whatever the rest of the state is. -/
theorem runStripRow_withStrip {i : Instr} {s t : State} (r : State) (h : runStripRow i s = .next t) :
    runStripRow i (r.withStrip s) = .next (r.withStrip t) := by
  cases i <;> cases h <;> rfl

theorem runStrip_withStrip {text : List Septet} {s t : State} (r : State) (h : runStrip text s = .next t) :
    runStrip text (r.withStrip s) = .next (r.withStrip t) := by
  induction text generalizing s with
  | nil =>
    obtain rfl := Host.Outcome.next.inj h
    rfl
  | cons ch rest ih =>
    obtain ⟨u, hu, hrest⟩ := andThen_eq_next.mp h
    exact andThen_eq_next.mpr ⟨_, runStripRow_withStrip r hu, ih hrest⟩

/-! ### Ctrl-Z -/

/-- Ctrl-Z leaves the strip as the characters of the payload, run on the state before the message, leave it (R185). -/
theorem exec_ctrlZ {s : State} {payload : List Byte} (hps : s.ps = .collectingMessage) (h : s.Holds payload)
    {before u : State} (hstrip : s.setIdx 1 = s.withStrip before)
    (hu : runStrip (payloadChars s.cfg payload) before = .next u) :
    exec (.byteIn 0x1A) s = .next ((((s.withStrip u).setIdx 1).emit replyOk).setPs .idle) := by
  obtain ⟨t, ht, -, hrun⟩ := runInterpreter_ok (messageChars_of_holds h)
  rw [hstrip, runStrip_withStrip s hu] at ht
  obtain rfl := Host.Outcome.next.inj ht
  rw [byteIn_exec, hps]
  exact andThen_eq_next.mpr ⟨_, hrun, rfl⟩

/-- Settles O56: the line, the hex text and Ctrl-Z in turn; the payload's characters are the text by the round trip. -/
theorem messageAppliesItsText : Obligations.MessageAppliesItsText := by
  intro s cmd front alen middle text hps hwf hskip hplain hfit hcmgs hmiddle htext hroom
  obtain ⟨a, ha, hasame, hawf, hempty⟩ := execAll_cmgsLine hps hwf hplain hfit hcmgs
  have hacfg : a.cfg = s.cfg := by rw [hasame]
  obtain ⟨m, hm, hmsame, hholds⟩ := execAll_hexText (payload := envelope front alen middle text) (by rw [hasame]) hawf
    (by rw [hasame]) hempty (by rw [hacfg]; exact hroom)
  have hmcfg : m.cfg = s.cfg := by rw [hmsame, hasame]
  obtain ⟨u, hu, -⟩ := runStrip_next text { s with idx := 1 }
  have hchars : payloadChars m.cfg (envelope front alen middle text) = text :=
    payloadChars_envelope (by rw [hmcfg, hskip]) hmiddle htext
  have hstrip : m.setIdx 1 = m.withStrip { s with idx := 1 } := by
    rw [hmsame, hasame]
    rfl
  have hsub := exec_ctrlZ (by rw [hmsame, hasame]) hholds hstrip (by rw [hchars, hu])
  refine ⟨(((m.withStrip u).setIdx 1).emit replyOk).setPs .idle, u, ?_, (runStrip_execAll text _).symm.trans hu,
    rfl, rfl, rfl, ?_, ?_⟩
  · have hbytes : byteEvents (commandLine cmd ++ hexText (envelope front alen middle text) ++ [0x1A])
        = byteEvents (commandLine cmd) ++ (byteEvents (hexText (envelope front alen middle text)) ++ [.byteIn 0x1A]) := by
      simp [byteEvents]
    rw [hbytes, execAll_append, ha, andThen_next, execAll_append, hm, andThen_next, execAll_cons, hsub]
    rfl
  · change m.wdtArmed = s.wdtArmed
    rw [hmsame, hasame]
  · change m.replyOut ++ replyOk = _
    rw [hmsame, hasame]
    rfl

end Sys2Proof.Machine
end

section
/-! PROOF. The parser state by state (40_parser.md): what the rows of each state do and which bytes select them,
and whole lines that are answered without a message. -/
namespace Sys2Proof.Machine

/-! ### Reads after `BufClear` and `BufAppend` -/

/-- `BufClear()` terminates the empty text (R62). -/
theorem readBuf_bufClear_zero {s : State} (hwf : s.buf.wf = true) : s.bufClear.readBuf 0 = .ok 0x00 := by
  have hempty : s.bufClear.HoldsText [] := holdsText_bufClear hwf
  exact hempty.2

/-- `BufClear()` writes `buf[0]` alone (R62). -/
theorem readBuf_bufClear_other (s : State) {a : Nat} (ha : a ≠ 0) : s.bufClear.readBuf a = s.readBuf a :=
  readBuf_congr rfl (bufferRead_write_other ha)

/-- An append, with room or without, writes no byte but `buf[len]` and the one after it (R63, R64). -/
theorem readBuf_bufAppend_other (s : State) (v : Byte) (term : Bool) {a : Nat} (ha : a ≠ s.len.toNat)
    (ha' : a ≠ s.len.toNat + 1) : (s.bufAppend v term).readBuf a = s.readBuf a := by
  refine readBuf_congr (bufAppend_cfg s v term) ?_
  rcases bufAppend_cases s v term with ⟨-, h⟩ | ⟨-, h⟩ <;> rw [h]
  cases term
  · exact bufferRead_write_other ha
  · exact (bufferRead_write_other ha').trans (bufferRead_write_other ha)

/-- With room, a text byte and its terminator are stored inside the buffer, and `len` counts the byte (R63). -/
theorem bufAppend_text_stored {s : State} (hroom : s.len.toNat < s.cfg.cap - 1) (v : Byte) :
    (s.bufAppend v true).len.toNat = s.len.toNat + 1 ∧
      (s.buf.wf = true → (s.bufAppend v true).readBuf s.len.toNat = .ok v ∧
        (s.bufAppend v true).readBuf (s.len.toNat + 1) = .ok 0x00) := by
  have happend : s.bufAppend v true
      = s.setBuffer (bufferWrite (bufferWrite s.buf s.len.toNat v) (s.len.toNat + 1) 0x00) (s.len + 1) := if_pos hroom
  rw [happend]
  refine ⟨len_succ hroom, fun hwf => ⟨readBuf_eq_ok.mpr ⟨?_, ?_⟩, readBuf_eq_ok.mpr ⟨?_, ?_⟩⟩⟩
  · rw [State.setBuffer_cfg]
    omega
  · exact (bufferRead_write_other (by omega)).trans (bufferRead_write_same hwf)
  · rw [State.setBuffer_cfg]
    omega
  · exact bufferRead_write_same (bufferWrite_wf _ _ hwf)

/-! ### The bytes of the default rows (R91, R107) -/

theorem plainByte_of_ne {b : Byte} (hcr : b ≠ 0x0D) (hesc : b ≠ 0x1B) : plainByte b = true :=
  Bool.and_eq_true_iff.mpr ⟨decide_eq_true hesc, decide_eq_true hcr⟩

/-- In a state that names a third byte `x`, the default row takes the plain bytes other than `x`. -/
theorem plainByte_and_ne {b x : Byte} (hx : b ≠ x) (hcr : b ≠ 0x0D) (hesc : b ≠ 0x1B) :
    (plainByte b && b ≠ x) = true := by
  simp [plainByte_of_ne hcr hesc, hx]

/-! ### The arms of the states -/

/-- Settles O1: each row is evaluated, and the default row is selected by what it admits. -/
theorem idleArm : Obligations.IdleArm :=
  ⟨fun _ => rfl, fun _ => rfl, fun _ _ => rfl, rfl, rfl,
    fun b hcr hesc => byteRow_stateOther .idle b (plainByte_of_ne hcr hesc)⟩

/-- Settles O2: as for `Idle`. -/
theorem awaitingCRArm : Obligations.AwaitingCRArm :=
  ⟨fun _ => rfl, fun _ _ => rfl, rfl,
    fun b hcr hesc => byteRow_stateOther .awaitingCRAfterPrompt b (plainByte_of_ne hcr hesc)⟩

/-- Settles O3: the default row admits no line feed either. -/
theorem waitingForLineFeedArm : Obligations.WaitingForLineFeedArm :=
  ⟨fun _ => rfl, fun _ => rfl, fun _ _ => rfl, rfl, rfl,
    fun b hlf hcr hesc => byteRow_stateOther .waitingForLineFeed b (plainByte_and_ne hlf hcr hesc)⟩

/-- Settles O4: the default row admits no `A` either. -/
theorem expectingAArm : Obligations.ExpectingAArm :=
  ⟨fun _ => rfl, fun _ => rfl, fun _ _ => rfl, rfl, rfl,
    fun b ha hcr hesc => byteRow_stateOther .expectingA b (plainByte_and_ne ha hcr hesc)⟩

/-- Settles O5: the reads after `T` are those after `BufClear()`. -/
theorem expectingTArm : Obligations.ExpectingTArm := by
  refine ⟨fun s => ?_, fun _ => rfl, fun _ _ => rfl, rfl, rfl,
    fun b ht hcr hesc => byteRow_stateOther .expectingT b (plainByte_and_ne ht hcr hesc)⟩
  exact ⟨s.bufClear.setPs .collectingCommand, rfl, rfl, readBuf_bufClear_zero,
    fun _ ha => readBuf_bufClear_other s ha⟩

/-- Settles O6: the row is `BufAppend` with a terminator, which stores with room and drops without. -/
theorem textByteIsAppended : Obligations.TextByteIsAppended := by
  refine ⟨byteRow_collectingCommand, fun s b => ⟨(s.bufAppend b true).setPs .collectingCommand, rfl, ?_, ?_⟩⟩
  · intro hroom
    obtain ⟨hlen, hstored⟩ := bufAppend_text_stored hroom b
    refine ⟨?_, hlen, hstored, fun a ha ha' => readBuf_bufAppend_other s b true ha ha'⟩
    rw [bufAppend_same]
    rfl
  · intro hfull
    rw [bufAppend_full hfull]
    rfl

/-- Settles O7: one case for each parser state. -/
theorem escapeChangesStateOnly : Obligations.EscapeChangesStateOnly := by
  constructor
  · intro i hi s
    fin_cases hi <;> rfl
  · intro ps
    cases ps <;> decide

/-! ### The commands -/

/-- Settles O9: the prompt leaves the buffer to `BufClear()`, and the nibble state is no part of it. -/
theorem cmgsEntersTheMessage : Obligations.CmgsEntersTheMessage := by
  intro s
  exact ⟨((s.emit replyPrompt).bufClear.setNibble false 0).setPs .collectingMessage, rfl, rfl,
    fun hwf => readBuf_bufClear_zero (s := s.emit replyPrompt) hwf,
    fun _ ha => readBuf_bufClear_other (s.emit replyPrompt) ha⟩

/-- Settles O10: both rows are their replies and the change of state, nothing else. -/
theorem queriesAndOtherTextsAreAnswered : Obligations.QueriesAndOtherTextsAreAnswered :=
  ⟨fun _ => rfl, fun _ => rfl⟩

/-- Settles O11: the flag is set before the common answer, which does not read it. -/
theorem z9ArmsTheWatchdog : Obligations.Z9ArmsTheWatchdog := fun _ => rfl

/-! ### A message -/

/-- Settles O15: both rows feed the nibble of their byte, as the hex row of the byte does. -/
theorem messageBytesFeedTheUnpacker : Obligations.MessageBytesFeedTheUnpacker :=
  ⟨fun s b => ⟨s.feedNibble (nib b), hexRow_exec b s, execCmOther_eq b s⟩,
    fun s => ⟨(s.emit replyEcho).feedNibble (nib byteCR), hexRow_exec byteCR (s.emit replyEcho), execCmCr_eq s⟩⟩

/-- Settles O17: the interpreter reads the payload's characters and runs each as the row it selects. -/
theorem ctrlZRunsTheMessage : Obligations.CtrlZRunsTheMessage := by
  intro s payload h
  obtain ⟨t, ht, -, hrun⟩ := runInterpreter_ok (messageChars_of_holds h)
  exact ⟨t, (runStrip_execAll _ _).symm.trans ht, andThen_eq_next.mpr ⟨t.setIdx 1, hrun, rfl⟩⟩

/-! ### Whole lines (R152) -/

/-- A line whose command answers `r` and `OK` and does nothing else is answered `r` and `OK` after the echoes. -/
theorem execAll_answeredLine {s : State} {text r : List Byte} (hps : s.ps = .idle) (hwf : s.buf.wf = true)
    (hplain : ∀ b ∈ text, b ≠ 0x0D ∧ b ≠ 0x1B) (hfit : text.length < s.cfg.cap)
    (hanswer : ∀ u, exec (commandOf s.cfg.z9Match text) u = .next (u.emit r).acknowledge) :
    ∃ t, execAll (byteEvents (commandLine text)) s = .next t ∧
      t = { s with buf := t.buf, len := t.len, ps := .waitingForLineFeed, replyOut := t.replyOut } ∧
      t.replyOut = s.replyOut ++ replyEcho ++ replyEcho ++ r ++ replyOk := by
  obtain ⟨u, hline, hsame, -, -⟩ := execAll_commandLine hps hwf hplain hfit
  refine ⟨(u.emit r).acknowledge, hline.trans (hanswer u), ?_, ?_⟩ <;>
  · rw [hsame]
    rfl

/-- A text that begins `+CPIN?` selects the `+CPIN?` row, since it cannot begin `+CMGS=` too (R94). -/
theorem commandOf_cpin {z : Z9Match} {text : List Byte} (h : textCpin <+: text) : commandOf z text = .cpin := by
  have hcmgs : ¬ textCmgs <+: text := by
    intro h'
    have hboth : textCmgs <+: textCpin := List.prefix_of_prefix_length_le h' h (by decide)
    exact absurd hboth (by decide)
  exact (if_neg hcmgs).trans (if_pos h)

/-- Settles O54: the default row is the answer `OK` alone. -/
theorem unrecognisedLineIsAnsweredOk : Obligations.UnrecognisedLineIsAnsweredOk := by
  intro s text hps hwf hplain hfit hcommand
  have hanswer : ∀ u, exec (commandOf s.cfg.z9Match text) u = .next (u.emit []).acknowledge := by
    intro u
    rw [hcommand, State.emit_nil]
    rfl
  obtain ⟨t, ht, hsame, hreply⟩ := execAll_answeredLine hps hwf hplain hfit hanswer
  rw [List.append_nil] at hreply
  exact ⟨t, ht, hsame, hreply⟩

/-- Settles O55: the text selects `+CPIN?`, whose answer is the status and `OK`. -/
theorem statusLineIsAnswered : Obligations.StatusLineIsAnswered := by
  intro s text hps hwf hplain hfit hcpin
  refine execAll_answeredLine (r := replyStatus) hps hwf hplain hfit fun u => ?_
  rw [commandOf_cpin hcpin]
  rfl

end Sys2Proof.Machine
end

section
/-! PROOF. The hex-nibble unpacker (41_hex_unpacker.md): the nibble each character stands for, what the first and
the second character of a pair do, and the bytes that a run of characters leaves in the buffer. -/
namespace Sys2Proof.Machine

/-! ### The nibble of a row (R175, R178, R179) -/

theorem format_of_mem_hexNibbles : ∀ p ∈ hexNibbles, p.1.format = .hex := by decide

theorem exec_of_mem_hexNibbles {p : Instr × BitVec 4} (h : p ∈ hexNibbles) (s : State) :
    exec p.1 s = .next (s.feedNibble p.2) :=
  (runHexRow_exec (format_of_mem_hexNibbles p h) s).symm.trans (runHexRow_nibble h s)

/-- A character outside the two hex ranges stands for 0 (R179). -/
theorem nib_of_not_isHexChar {b : Byte} (h : isHexChar b = false) : nib b = 0 := by
  obtain ⟨hdigit, hletter⟩ := Bool.or_eq_false_iff.mp h
  simp only [nib, hdigit, hletter, Bool.false_eq_true, if_false]

/-- `HEXOTHER` admits no hex character, so it feeds 0 (R179). -/
theorem exec_hexOther {b : Byte} (h : (Instr.hexOther b).wf = true) (s : State) :
    exec (.hexOther b) s = .next (s.feedNibble 0) := by
  have hother : isHexChar b = false := by
    simp only [Instr.wf, Bool.and_eq_true, Bool.not_eq_true'] at h
    obtain ⟨⟨hother, -⟩, -⟩ := h
    exact hother
  rw [← nib_of_not_isHexChar hother]
  rfl

theorem inRange_eq_true {w : Nat} {v lo hi : BitVec w} :
    inRange v lo hi = true ↔ lo.toNat ≤ v.toNat ∧ v.toNat ≤ hi.toNat := by
  simp only [inRange, Bool.and_eq_true, decide_eq_true_eq, BitVec.le_def]

/-- The nibble of a character as a number: digits count from 0x30, letters from 10 at 0x41 (R175, R178, R179). -/
theorem nib_toNat (b : Byte) : (nib b).toNat =
    if 0x30 ≤ b.toNat ∧ b.toNat ≤ 0x39 then b.toNat - 0x30
    else if 0x41 ≤ b.toNat ∧ b.toNat ≤ 0x46 then b.toNat - 0x37 else 0 := by
  have hdigit : inRange b 0x30 0x39 = true ↔ 0x30 ≤ b.toNat ∧ b.toNat ≤ 0x39 := inRange_eq_true
  have hletter : inRange b 0x41 0x46 = true ↔ 0x41 ≤ b.toNat ∧ b.toNat ≤ 0x46 := inRange_eq_true
  unfold nib
  simp only [hdigit, hletter]
  split
  · rw [BitVec.toNat_ofNat]
    omega
  · split
    · rw [BitVec.toNat_ofNat]
      omega
    · rfl

/-! ### A pair of characters (R172, R173) -/

/-- The first character of a pair stores its nibble (R172). -/
theorem feedNibble_of_haveHi_false {s : State} (h : s.haveHi = false) (n : BitVec 4) :
    s.feedNibble n = s.setNibble true n := by
  rw [State.feedNibble, h]
  rfl

/-- The second character of a pair appends the pair's byte and keeps the stored nibble (R173). -/
theorem feedNibble_of_haveHi_true {s : State} (h : s.haveHi = true) (n : BitVec 4) :
    s.feedNibble n = (s.bufAppend (pairByte s.hiNib n) false).setNibble false s.hiNib := by
  rw [State.feedNibble, h]
  rfl

/-- A nibble always toggles the flag (R180). -/
@[simp] theorem feedNibble_haveHi (s : State) (n : BitVec 4) : (s.feedNibble n).haveHi = !s.haveHi := by
  cases h : s.haveHi
  · rw [feedNibble_of_haveHi_false h]
    rfl
  · rw [feedNibble_of_haveHi_true h]
    rfl

/-- The byte of a pair as a number, high nibble first (R67). -/
theorem pairByte_eq_ofNat (hi lo : BitVec 4) : pairByte hi lo = BitVec.ofNat 8 (16 * hi.toNat + lo.toNat) := by
  apply BitVec.eq_of_toNat_eq
  have hhi := hi.isLt
  have hlo := lo.isLt
  have happend : (pairByte hi lo).toNat = 2 ^ 4 * hi.toNat + lo.toNat := by
    rw [pairByte, BitVec.toNat_append, Nat.shiftLeft_eq, Nat.mul_comm, Nat.two_pow_add_eq_or_of_lt hlo]
  rw [happend, BitVec.toNat_ofNat]
  omega

/-! ### The byte of a pair in the buffer (R63, R173, R174) -/

/-- With room, an append without a terminator writes `buf[len]` alone and `len` counts the byte (R63). -/
theorem bufAppend_byte_stored {s : State} (hroom : s.len.toNat < s.cfg.cap - 1) (v : Byte) :
    (s.bufAppend v false).len.toNat = s.len.toNat + 1 ∧
      (s.buf.wf = true → (s.bufAppend v false).readBuf s.len.toNat = .ok v) ∧
      ∀ a, a ≠ s.len.toNat → (s.bufAppend v false).readBuf a = s.readBuf a := by
  have happend : s.bufAppend v false = s.setBuffer (bufferWrite s.buf s.len.toNat v) (s.len + 1) := if_pos hroom
  rw [happend]
  refine ⟨len_succ hroom, fun hwf => readBuf_eq_ok.mpr ⟨?_, bufferRead_write_same hwf⟩,
    fun a ha => readBuf_congr rfl (bufferRead_write_other ha)⟩
  rw [State.setBuffer_cfg]
  omega

/-- Completing a pair is an append without a terminator, which stores with room and drops without (R173, R174). -/
theorem feedNibble_completes {s : State} (hsecond : s.haveHi = true) (k : BitVec 4) :
    (s.len.toNat < s.cfg.cap - 1 →
      s.feedNibble k = { s with buf := (s.feedNibble k).buf, len := (s.feedNibble k).len, haveHi := false } ∧
      (s.feedNibble k).len.toNat = s.len.toNat + 1 ∧
      (s.buf.wf = true →
        (s.feedNibble k).readBuf s.len.toNat = .ok (BitVec.ofNat 8 (16 * s.hiNib.toNat + k.toNat))) ∧
      ∀ a, a ≠ s.len.toNat → (s.feedNibble k).readBuf a = s.readBuf a) ∧
    (s.cfg.cap - 1 ≤ s.len.toNat → s.feedNibble k = { s with haveHi := false }) := by
  rw [feedNibble_of_haveHi_true hsecond, ← pairByte_eq_ofNat]
  refine ⟨fun hroom => ⟨?_, bufAppend_byte_stored hroom _⟩, fun hfull => ?_⟩
  · rw [bufAppend_same]
    rfl
  · rw [bufAppend_full hfull]
    rfl

/-! ### The statements -/

/-- Settles O12: with the flag clear, feeding a nibble stores it. -/
theorem firstNibbleIsStored : Obligations.FirstNibbleIsStored := by
  intro s hfirst
  refine ⟨fun p hp => ?_, fun b hb => ?_⟩
  · rw [exec_of_mem_hexNibbles hp, feedNibble_of_haveHi_false hfirst]
    rfl
  · rw [exec_hexOther hb, feedNibble_of_haveHi_false hfirst]
    rfl

/-- Settles O13: each row feeds its nibble, and the flag is set, so it completes a pair. -/
theorem secondNibbleCompletesAByte : Obligations.SecondNibbleCompletesAByte := by
  rintro s hsecond i n (hrow | ⟨b, rfl, hwf, rfl⟩)
  · have hnibble : (i, n) ∈ hexNibbles.map fun p => (p.1, p.2.toNat) := hrow
    obtain ⟨⟨j, k⟩, hk, heq⟩ := List.mem_map.mp hnibble
    obtain ⟨rfl, rfl⟩ := Prod.mk.inj heq
    exact ⟨s.feedNibble k, exec_of_mem_hexNibbles hk s, feedNibble_completes hsecond k⟩
  · exact ⟨s.feedNibble 0, exec_hexOther hwf s, feedNibble_completes hsecond 0⟩

/-- Settles O14: the row a character selects feeds the character's nibble. -/
theorem charactersSelectTheirNibble : Obligations.CharactersSelectTheirNibble := by
  refine fun b s => ⟨s.feedNibble (nib b), hexRow_exec b s, feedNibble_haveHi s _, fun hfirst => ?_⟩
  rw [feedNibble_of_haveHi_false hfirst]
  exact nib_toNat b

/-- Settles O16: the run stores the bytes of its pairs from index 0, as many as fit. -/
theorem unpackerAsAFunction : Obligations.UnpackerAsAFunction := by
  intro s chars hps heven hlen hwf hplain
  have hempty : s.Holds [] := ⟨by rw [hlen]; rfl, fun i hi => absurd hi (Nat.not_lt_zero i)⟩
  obtain ⟨t, ht, hsame, -, ⟨hcount, hread⟩, -⟩ := execAll_chars hps hwf heven hempty (Nat.zero_le _) hplain
  rw [List.nil_append, List.length_take, pairBytes_length] at hcount
  refine ⟨t, ht, by rw [hsame]; exact hps, by rw [hcount, Nat.min_comm], fun p hp => ?_⟩
  have hpair : p < chars.length / 2 := by omega
  have hstored := hread p (by rw [List.nil_append, List.length_take, pairBytes_length]; omega)
  obtain ⟨_, hbyte⟩ := List.getElem_of_getElem? (pairBytes_getElem? chars p hpair)
  rw [hstored, ← pairByte_eq_ofNat, ← hbyte]
  simp only [List.nil_append, List.getElem_take]

end Sys2Proof.Machine
end

section
/-! PROOF. The Command Interpreter (42_septet_interpreter.md): the colour that each painting row stages and
applies, and the rows that only move the running index. -/
namespace Sys2Proof.Machine

/-! ### The colour tables (R36) -/

theorem rainbowColour_of_table {cfg : Config} {table : Vector Colour 26} (h : cfg.rainbow = some table) (k : Fin 26) :
    rainbowColour cfg k = table[k.val] := by
  rw [rainbowColour, h]
  rfl

/-- `GRAY[0]` is off whatever the build's table holds (R36). -/
theorem grayColour_zero (cfg : Config) : grayColour cfg 0 = Colour.off := rfl

/-- The build's table holds the gray entries from 1 on (R36). -/
theorem grayColour_succ_of_table {cfg : Config} {table : Vector Colour 9} (h : cfg.grayTail = some table) (k : Fin 9) :
    grayColour cfg k.succ = table[k.val] := by
  rw [grayColour, dif_neg (Fin.succ_ne_zero k), h]
  rfl

/-! ### The rows that paint (R196, R197) -/

/-- `'a' + k` paints entry `k` of the rainbow table (R196). -/
theorem exec_stripRow_rainbow (k : Fin 26) (s : State) :
    exec (stripRow (BitVec.ofNat 7 (0x61 + k.val))) s = .next (s.paint (rainbowColour s.cfg k)) := by
  fin_cases k <;> rfl

/-- `'0' + d` paints entry `d` of the gray table (R197). -/
theorem exec_stripRow_gray (d : Fin 10) (s : State) :
    exec (stripRow (BitVec.ofNat 7 (0x30 + d.val))) s = .next (s.paint (grayColour s.cfg d)) := by
  fin_cases d <;> rfl

/-- Painting is staging, then `SetTarget` at the running index, which is left for the advance (R196, R197). -/
theorem exec_setTarget_of_paint {i : Instr} {s : State} {colour : Colour} (h : exec i s = .next (s.paint colour)) :
    ∃ t, exec (.setTarget s.idx colour) { s with scratch := colour } = .next t ∧
      exec i s = .next { t with idx := s.idx + 1 } :=
  ⟨(s.stage colour).setTarget s.idx colour, rfl, h⟩

/-! ### The default row (R101, R199) -/

/-- A character outside the named ones is one that `SKIP_OTHER` admits (R101). -/
theorem skipOther_wf_of_unnamed {ch : Septet} (hshift : ch ≠ 0x3E) (hrainbow : ¬ (0x61 ≤ ch.toNat ∧ ch.toNat ≤ 0x7A))
    (hgray : ¬ (0x30 ≤ ch.toNat ∧ ch.toNat ≤ 0x39)) (hoff : ch ≠ 0x58) (hspace : ch ≠ 0x20) :
    (Instr.skipOther ch).wf = true := by
  have hletter : inRange ch 0x61 0x7A = false := Bool.eq_false_iff.mpr fun h => hrainbow (inRange_eq_true.mp h)
  have hdigit : inRange ch 0x30 0x39 = false := Bool.eq_false_iff.mpr fun h => hgray (inRange_eq_true.mp h)
  simp only [Instr.wf, isNamedStrip, decide_eq_false hshift, hletter, hdigit, decide_eq_false hoff,
    decide_eq_false hspace, Bool.or_self, Bool.not_false]

/-! ### The statements -/

/-- Settles O19: `Shift()` sets LEDs only, so the scratch slot stays. -/
theorem shiftCommand : Obligations.ShiftCommand := fun s => ⟨s.shiftTargets, rfl, rfl, State.setLeds_scratch s _⟩

/-- Settles O20: each row is the one its character selects, and that row paints the character's entry. -/
theorem rainbowCommands : Obligations.RainbowCommands := by
  refine ⟨fun p hp => ?_, fun _ _ k h => rainbowColour_of_table h k⟩
  have hrow : stripRow (BitVec.ofNat 7 (0x61 + p.2.val)) = p.1 := by
    revert p
    decide
  exact ⟨hrow, fun s => exec_setTarget_of_paint (hrow ▸ exec_stripRow_rainbow p.2 s)⟩

/-- Settles O21: as for the rainbow, with the gray table. -/
theorem grayCommands : Obligations.GrayCommands := by
  refine ⟨fun p hp => ?_, grayColour_zero, fun _ _ k h => grayColour_succ_of_table h k⟩
  have hrow : stripRow (BitVec.ofNat 7 (0x30 + p.2.val)) = p.1 := by
    revert p
    decide
  exact ⟨hrow, fun s => exec_setTarget_of_paint (hrow ▸ exec_stripRow_gray p.2 s)⟩

/-- Settles O22: the row stages and broadcasts `GRAY[0]`, which is off in every build. -/
theorem allOffCommand : Obligations.AllOffCommand :=
  ⟨rfl, fun s => ⟨(s.stage Colour.off).setTarget 0 Colour.off, rfl, rfl⟩⟩

/-- Settles O23: both rows are the advance alone, and the default row is selected by what it admits. -/
theorem skipCommands : Obligations.SkipCommands :=
  ⟨fun _ => rfl, fun _ _ => rfl, rfl, fun ch hshift hrainbow hgray hoff hspace =>
    stripRow_skipOther ch (skipOther_wf_of_unnamed hshift hrainbow hgray hoff hspace)⟩

end Sys2Proof.Machine
end

section
/-! PROOF. The Fade Engine (43_fade_engine.md): what `SetTarget`, `Shift` and `Tick` make of one LED, a fade any
number of ticks after its start, and the tick of the timer. -/
namespace Sys2Proof.Machine

/-! ### Distance and direction (R223, R224) -/

/-- One of the two differences is 0, so their sum is the distance, whichever way the channel goes. -/
theorem channelDist_eq_add (cur tgt : Byte) :
    channelDist cur tgt = tgt.toNat - cur.toNat + (cur.toNat - tgt.toNat) := by
  unfold channelDist
  split <;> omega

@[simp] theorem fallsTo_eq_true {cur tgt : Byte} : fallsTo cur tgt = true ↔ tgt.toNat < cur.toNat :=
  decide_eq_true_iff

theorem stepFalls_eq_true {step : BitVec 16} : stepFalls step = true ↔ step.toNat % 2 = 1 := by
  rw [stepFalls, BitVec.getLsbD, Nat.testBit_zero, decide_eq_true_iff]

/-! ### One LED given a target (R222 to R225) -/

theorem retarget_cnt_toNat (cfg : Config) (c : Colour) (l : Led) :
    (l.retarget cfg c).cnt.toNat = 2 ^ cfg.fadeShift.val := (retarget_inFade cfg c l).count

theorem retarget_frac_get (cfg : Config) (colour : Colour) (l : Led) (c : Fin 3) :
    ((l.retarget cfg colour).frac.get c) = 0 := get_fill 0 c

theorem retarget_step_get_toNat (cfg : Config) (colour : Colour) (l : Led) (c : Fin 3) :
    ((l.retarget cfg colour).step.get c).toNat =
      ((colour.get c).toNat - (l.cur.get c).toNat + ((l.cur.get c).toNat - (colour.get c).toNat))
          * 2 ^ (8 - cfg.fadeShift.val)
        + (if (colour.get c).toNat < (l.cur.get c).toNat then 1 else 0) := by
  have hstep : (l.retarget cfg colour).step.get c = fadeStep cfg.fadeShift (l.cur.get c) (colour.get c) :=
    get_map2 _ _ _ c
  simp only [hstep, fadeStep_toNat, channelDist_eq_add, fallsTo_eq_true]

/-! ### One LED ticked (R229, R230) -/

theorem tick_of_cnt_eq_zero {l : Led} (h : l.cnt = 0) : l.tick = { l with cur := l.tgt } := if_pos h

theorem tick_of_cnt_ne_zero {l : Led} (h : l.cnt ≠ 0) :
    l.tick = { l with
      cnt := l.cnt - 1, cur := Chan.map3 laneCur l.cur l.step l.frac, frac := Chan.map2 laneFrac l.step l.frac } :=
  if_neg h

theorem tick_cnt_toNat {l : Led} (h : l.cnt ≠ 0) : l.tick.cnt.toNat + 1 = l.cnt.toNat := by
  rw [tick_of_cnt_ne_zero h]
  bv_omega

theorem laneFrac_toNat (step : BitVec 16) (frac : Byte) :
    (laneFrac step frac).toNat = (frac.toNat + step.toNat % 256) % 256 := BitVec.toNat_ofNat _ _

/-- The whole units of a tick are added or taken, modulo 256, by bit 0 of the step (R230). -/
theorem laneCur_toInt (cur : Byte) (step : BitVec 16) (frac : Byte) :
    ((laneCur cur step frac).toNat : Int) =
      (cur.toNat + (if step.toNat % 2 = 0 then 1 else -1) * (laneDelta step frac : Int)) % 256 := by
  have hcur := cur.isLt
  rw [laneCur]
  generalize laneDelta step frac = delta
  by_cases hfalls : stepFalls step = true
  · have hbit := stepFalls_eq_true.mp hfalls
    rw [if_pos hfalls, if_neg (by omega), BitVec.toNat_sub, BitVec.toNat_ofNat]
    omega
  · have hbit := mt stepFalls_eq_true.mpr hfalls
    rw [if_neg hfalls, if_pos (by omega), BitVec.toNat_add, BitVec.toNat_ofNat]
    omega

/-! ### A channel in a fade (R232, R234) -/

/-- No more than the whole distance is gone before the last tick. -/
theorem faded_units_le {ticks k : Nat} (hk : k ≤ ticks) (d : Nat) : k * d / ticks ≤ d :=
  Nat.div_le_of_le_mul (Nat.mul_le_mul_right d hk)

theorem fadedChannel_toNat_rising {ticks k : Nat} (hk : k ≤ ticks) {v0 v1 : Byte} (h : v0.toNat ≤ v1.toNat) :
    (fadedChannel ticks k v0 v1).toNat = v0.toNat + k * channelDist v0 v1 / ticks := by
  have hunits := faded_units_le hk (channelDist v0 v1)
  have hdist := channelDist_eq_add v0 v1
  have hv1 := v1.isLt
  rw [fadedChannel, if_neg (by simpa using h), BitVec.toNat_add, BitVec.toNat_ofNat]
  generalize k * channelDist v0 v1 / ticks = units at *
  omega

theorem fadedChannel_toNat_falling {ticks k : Nat} (hk : k ≤ ticks) {v0 v1 : Byte} (h : v1.toNat < v0.toNat) :
    (fadedChannel ticks k v0 v1).toNat = v0.toNat - k * channelDist v0 v1 / ticks := by
  have hunits := faded_units_le hk (channelDist v0 v1)
  have hdist := channelDist_eq_add v0 v1
  have hv0 := v0.isLt
  rw [fadedChannel, if_pos (by simpa using h), BitVec.toNat_sub, BitVec.toNat_ofNat]
  generalize k * channelDist v0 v1 / ticks = units at *
  omega

/-- Both directions in one signed equation (R232). -/
theorem fadedChannel_toInt {ticks k : Nat} (hk : k ≤ ticks) (v0 v1 : Byte) :
    ((fadedChannel ticks k v0 v1).toNat : Int) =
      v0.toNat + (if v1.toNat < v0.toNat then -1 else 1) * ((k * channelDist v0 v1 / ticks : Nat) : Int) := by
  have hunits := faded_units_le hk (channelDist v0 v1)
  have hdist := channelDist_eq_add v0 v1
  by_cases h : v1.toNat < v0.toNat
  · rw [fadedChannel_toNat_falling hk h, if_pos h]
    omega
  · rw [fadedChannel_toNat_rising hk (Nat.le_of_not_lt h), if_neg h]
    omega

/-- One tick further into a fade, a channel is between where it was and its target (R234). -/
theorem fadedChannel_succ_between {ticks k : Nat} (hk : k + 1 ≤ ticks) (v0 v1 : Byte) :
    ((fadedChannel ticks k v0 v1).toNat ≤ v1.toNat →
      (fadedChannel ticks k v0 v1).toNat ≤ (fadedChannel ticks (k + 1) v0 v1).toNat ∧
        (fadedChannel ticks (k + 1) v0 v1).toNat ≤ v1.toNat) ∧
    (v1.toNat ≤ (fadedChannel ticks k v0 v1).toNat →
      v1.toNat ≤ (fadedChannel ticks (k + 1) v0 v1).toNat ∧
        (fadedChannel ticks (k + 1) v0 v1).toNat ≤ (fadedChannel ticks k v0 v1).toNat) := by
  have hmono : k * channelDist v0 v1 / ticks ≤ (k + 1) * channelDist v0 v1 / ticks :=
    Nat.div_le_div_right (Nat.mul_le_mul_right _ (Nat.le_succ k))
  have hunits := faded_units_le hk (channelDist v0 v1)
  have hdist := channelDist_eq_add v0 v1
  by_cases h : v1.toNat < v0.toNat
  · rw [fadedChannel_toNat_falling (Nat.le_of_succ_le hk) h, fadedChannel_toNat_falling hk h]
    omega
  · have hrises := Nat.le_of_not_lt h
    rw [fadedChannel_toNat_rising (Nat.le_of_succ_le hk) hrises, fadedChannel_toNat_rising hk hrises]
    omega

theorem fadedFrac_toNat (ticks k : Nat) (v0 v1 : Byte) :
    (fadedFrac ticks k v0 v1).toNat =
      k * (channelDist v0 v1 % ticks * (256 / ticks) + (if v1.toNat < v0.toNat then 1 else 0)) % 256 := by
  simp only [fadedFrac, fallsTo_eq_true, BitVec.toNat_ofNat]

/-! ### An LED in a fade (R232, R233) -/

theorem inFade_cur_get {cfg : Config} {v0 : Colour} {k : Nat} {l : Led} (h : l.InFade cfg v0 k) (c : Fin 3) :
    l.cur.get c = fadedChannel cfg.fadeTicks k (v0.get c) (l.tgt.get c) := by
  rw [h.cur, get_map2]

theorem inFade_frac_get {cfg : Config} {v0 : Colour} {k : Nat} {l : Led} (h : l.InFade cfg v0 k) (c : Fin 3) :
    l.frac.get c = fadedFrac cfg.fadeTicks k (v0.get c) (l.tgt.get c) := by
  rw [h.frac, get_map2]

/-- A fade has a tick left exactly when its countdown is not 0. -/
theorem inFade_cnt_ne_zero_iff {cfg : Config} {v0 : Colour} {k : Nat} {l : Led} (h : l.InFade cfg v0 k) :
    l.cnt ≠ 0 ↔ k < cfg.fadeTicks := by
  have hcount := h.count
  have hzero : l.cnt = 0 ↔ l.cnt.toNat = 0 := BitVec.toNat_inj.symm
  rw [Ne, hzero]
  omega

/-- Once a fade has run its ticks, further ticks leave the LED as it is (R229, R233). -/
theorem tick_eq_self_of_inFade_end {cfg : Config} {v0 : Colour} {l : Led} (h : l.InFade cfg v0 cfg.fadeTicks) :
    l.tick = l := by
  have hc : l.cnt = 0 := not_not.mp (mt (inFade_cnt_ne_zero_iff h).mp (Nat.lt_irrefl _))
  calc l.tick = { l with cur := l.tgt } := tick_of_cnt_eq_zero hc
    _ = l := congrArg (fun c => { l with cur := c }) (inFade_end h).symm

/-- A tick takes a fade one tick further until the fade has run its ticks (R232). -/
theorem tick_inFade_min {cfg : Config} {v0 : Colour} {k : Nat} {l : Led}
    (h : l.InFade cfg v0 (min k cfg.fadeTicks)) : l.tick.InFade cfg v0 (min (k + 1) cfg.fadeTicks) := by
  rcases Nat.lt_or_ge k cfg.fadeTicks with hk | hk
  · rw [Nat.min_eq_left hk.le] at h
    rw [Nat.min_eq_left hk]
    exact tick_inFade h ((inFade_cnt_ne_zero_iff h).mpr hk)
  · rw [Nat.min_eq_right hk] at h
    rwa [Nat.min_eq_right (Nat.le_succ_of_le hk), tick_eq_self_of_inFade_end h]

/-- A tick of an LED that meets its invariant moves each channel toward the target and not past it (R234). -/
theorem tick_cur_between {cfg : Config} {l : Led} (h : l.Inv cfg) (c : Fin 3) :
    ((l.cur.get c).toNat ≤ (l.tgt.get c).toNat →
      (l.cur.get c).toNat ≤ (l.tick.cur.get c).toNat ∧ (l.tick.cur.get c).toNat ≤ (l.tgt.get c).toNat) ∧
    ((l.tgt.get c).toNat ≤ (l.cur.get c).toNat →
      (l.tgt.get c).toNat ≤ (l.tick.cur.get c).toNat ∧ (l.tick.cur.get c).toNat ≤ (l.cur.get c).toNat) := by
  rcases h with ⟨hc, hcur⟩ | ⟨hc, v0, k, hf⟩
  · rw [tick_of_cnt_eq_zero hc, hcur]
    simp
  · rw [inFade_cur_get hf, inFade_cur_get (tick_inFade hf hc), tick_tgt]
    exact fadedChannel_succ_between ((inFade_cnt_ne_zero_iff hf).mp hc) _ _

/-! ### `SetTarget` and `k` ticks (R232) -/

/-- An LED that `SetTarget` reached is, `k` ticks later, that far into its fade or at its end. -/
theorem execAll_setTarget_ticks {s : State} {index : Byte} {i : Nat} {l : Led} (hlen : s.leds.length = s.n)
    (hl : s.led i = some l) (hreach : index = 0 ∨ index.toNat = i) (colour : Colour) (k : Nat) :
    ∃ t m, execAll (.setTarget index colour :: List.replicate k .tick) s = .next t ∧ t.led i = some m ∧
      m.tgt = colour ∧ m.InFade s.cfg l.cur (min k s.cfg.fadeTicks) := by
  induction k with
  | zero =>
    refine ⟨s.setTarget index colour, l.retarget s.cfg colour, rfl, ?_, rfl, ?_⟩
    · rw [setTarget_led hlen hl, if_pos hreach]
    · rw [Nat.zero_min]
      exact retarget_inFade s.cfg colour l
  | succ k ih =>
    obtain ⟨t, m, ht, hm, htgt, hfade⟩ := ih
    refine ⟨t.tickLeds, m.tick, ?_, tickLeds_led hm, by rw [tick_tgt, htgt], tick_inFade_min hfade⟩
    rw [List.replicate_succ', ← List.cons_append, execAll_append, ht]
    rfl

/-! ### The statements -/

/-- Settles O31: the trigger copies the live colours and resets the cursor when idle, and does nothing when busy. -/
theorem timerTickTriggersThenTicks : Obligations.TimerTickTriggersThenTicks := by
  constructor
  · intro s hidle
    have htrigger : s.trigger = (s.setLeds (s.leds.map Led.capture)).setTx true 0 0 s.txSr := by
      simpa [hidle] using trigger_cases s
    exact ⟨s.trigger.tickLeds, rfl, by rw [htrigger]; rfl⟩
  · intro s hbusy
    have htrigger : s.trigger = s := by simpa [hbusy] using trigger_cases s
    exact ⟨s.trigger.tickLeds, rfl, by rw [htrigger]; rfl⟩

/-- Settles O26, from what retargeting makes of one LED. -/
theorem setTargetRetargets : Obligations.SetTargetRetargets := by
  intro s index colour hlen
  refine ⟨s.setTarget index colour, rfl, rfl, (retargetLeds_retargeted _ _ _ _).length, fun i l hl => ?_⟩
  refine ⟨_, setTarget_led hlen hl, fun hreach => ?_, fun h0 hi => if_neg (not_or.mpr ⟨h0, hi⟩)⟩
  rw [if_pos hreach]
  exact ⟨rfl, retarget_cnt_toNat _ _ _, rfl, rfl, fun c =>
    ⟨retarget_frac_get _ _ _ c, retarget_step_get_toNat _ _ _ c⟩⟩

/-- Settles O27: the loop reads every target from the state before the shift. -/
theorem shiftCascadesTargets : Obligations.ShiftCascadesTargets := by
  intro s hlen
  have hled (k : Nat) := shiftLoop_getElem? s.cfg s.n s.leds (Nat.le_refl _) hlen k
  refine ⟨s.shiftTargets, rfl, rfl, (shiftLoop_retargeted _ _ _).length, hled 0, fun i p h2 hi hp => ?_⟩
  refine ⟨s.setTarget (BitVec.ofNat 8 i) p.tgt, rfl, ?_⟩
  obtain ⟨j, rfl⟩ := Nat.exists_eq_add_of_le' h2
  have hin : j + 1 < s.leds.length := by omega
  have hindex : (BitVec.ofNat 8 (j + 2)).toNat = j + 2 := by
    have hn : s.n ≤ 254 := (n_bounds s.cfg).2
    rw [BitVec.toNat_ofNat]
    omega
  have hp' : s.leds[j]? = some p := hp
  have hown : s.led (j + 2) = some s.leds[j + 1] := List.getElem?_eq_getElem hin
  rw [setTarget_led hlen hown, if_pos (.inr hindex)]
  calc s.shiftTargets.led (j + 2)
      = s.leds[j]?.bind fun q => s.leds[j + 1]?.map (Led.retarget s.cfg q.tgt) :=
        (hled (j + 1)).trans (if_pos (by omega))
    _ = some (s.leds[j + 1].retarget s.cfg p.tgt) := by
        rw [hp', List.getElem?_eq_getElem hin]
        rfl

/-- Settles O28, from what a tick makes of one LED and of one lane. -/
theorem tickSteps : Obligations.TickSteps := by
  intro s
  refine ⟨s.tickLeds, rfl, rfl, (tickLeds_stripOnly s).ledCount, fun i l hl => ?_⟩
  refine ⟨l.tick, tickLeds_led hl, tick_of_cnt_eq_zero, fun hc => ⟨?_, tick_cnt_toNat hc, fun c => ?_⟩⟩
  · rw [tick_of_cnt_ne_zero hc]
  · rw [tick_of_cnt_ne_zero hc, get_map2, get_map3]
    exact ⟨laneFrac_toNat _ _, laneCur_toInt _ _ _⟩

/-- Settles O29: the LED is `min k F` ticks into its fade, and the closed form says where that is. -/
theorem fadeClosedForm : Obligations.FadeClosedForm := by
  intro s index colour k i l hlen hl hreach
  obtain ⟨t, m, ht, hm, rfl, hfade⟩ := execAll_setTarget_ticks hlen hl hreach colour k
  refine ⟨t, m, ht, hm, rfl, ?_, fun hk => ?_, fun c v0 v1 d dir hv0 hv1 hd hdir => ?_⟩
  · have hcount := hfade.count
    omega
  · rw [Nat.min_eq_right hk] at hfade
    exact inFade_end hfade
  · subst hv0 hv1 hd hdir
    rw [inFade_cur_get hfade, inFade_frac_get hfade, ← channelDist_eq_add]
    exact ⟨fadedChannel_toInt (Nat.min_le_right _ _) _ _, fadedFrac_toNat _ _ _ _⟩

/-- Settles O30, LED by LED from invariant 4 (R39). -/
theorem tickMovesTowardTheTarget : Obligations.TickMovesTowardTheTarget := by
  intro s hinv
  refine ⟨s.tickLeds, rfl, fun i l hl => ⟨l.tick, tickLeds_led hl, ?_⟩⟩
  obtain ⟨k, -, hk⟩ := led_eq_some.mp hl
  exact tick_cur_between (hinv.ledsInv l (List.mem_of_getElem? hk))

end Sys2Proof.Machine
end

section
/-! PROOF. The serial clock (44_strip_transmitter.md): what one `SCLK` does, what it depends on, and that it
commutes with a byte and with a tick inside a frame (R254 to R257, R261, R263, R264, R285). -/
namespace Sys2Proof.Machine

/-! ### One pulse (R254 to R257) -/

theorem pulseStep_of_idle {s : State} (hidle : s.txBusy = false) : pulseStep s = .next s := by
  rw [pulseStep, hidle]
  rfl

theorem pulseStep_of_bits_left {s : State} (hbusy : s.txBusy = true) (hbits : s.txBits ≠ 0) :
    pulseStep s = .next (s.shiftOut s.txPos s.txBits s.txSr) := by
  rw [pulseStep, if_pos hbusy, if_neg hbits]

theorem pulseStep_of_refill {s : State} {v : Byte} (hbusy : s.txBusy = true) (hbits : s.txBits = 0)
    (hv : s.snapByte s.txPos.toNat = some v) : pulseStep s = .next (s.shiftOut (s.txPos + 1) 8 v) := by
  rw [pulseStep, if_pos hbusy, if_pos hbits, hv]

theorem snapByte_of_led {s : State} {j : Nat} {l : Led} (h : s.led (1 + j / 3) = some l) :
    s.snapByte j = some (l.snap.get (Fin.ofNat 3 (j % 3))) := by
  simp only [State.snapByte, h]

/-- The symbol of the top bit, the bit said as a quotient (R106, R257). -/
theorem symbolOf_msb (v : Byte) : symbolOf v.msb = if v.toNat / 128 = 1 then .long else .short := by
  have hmsb : v.msb = decide (v.toNat / 128 = 1) := by
    rw [BitVec.msb_eq_decide]
    exact decide_eq_decide.mpr (by omega)
  simp [symbolOf, hmsb]

theorem shiftLeft_one_eq_ofNat (v : Byte) : v <<< 1 = BitVec.ofNat 8 (2 * v.toNat) := by
  apply BitVec.eq_of_toNat_eq
  rw [BitVec.toNat_shiftLeft, BitVec.toNat_ofNat, Nat.shiftLeft_eq, Nat.mul_comm]

/-- After a bit with `bits` to go, the frame is over when that bit was the last one of the last byte (R256). -/
theorem frameOver_sub_one (n : Nat) (pos : BitVec 10) (bits : BitVec 4) :
    frameOver n pos (bits - 1) = (decide (bits = 1) && decide (pos.toNat = 3 * n)) := by
  have hlast : bits - 1 = 0 ↔ bits = 1 := sub_eq_zero
  rw [frameOver, decide_eq_decide.mpr hlast]

/-- The first bit of a byte leaves seven, and does not end the frame (R254, R256). -/
theorem shiftOut_refilled (s : State) (pos : BitVec 10) (v : Byte) :
    s.shiftOut pos 8 v = (s.emitSymbol (symbolOf v.msb)).setTx true pos 7 (v <<< 1) := rfl

/-! ### What a pulse depends on (R254, R263) -/

/-- `s` with the transmitter registers and the strip output of `r`. -/
def State.withTx (s r : State) : State :=
  { s with txBusy := r.txBusy, txPos := r.txPos, txBits := r.txBits, txSr := r.txSr, stripOut := r.stripOut }

/-- Two states that the transmitter cannot tell apart: the same registers, snapshot and number of LEDs. -/
structure SameToTx (s s' : State) : Prop where
  busy : s'.txBusy = s.txBusy
  pos : s'.txPos = s.txPos
  bits : s'.txBits = s.txBits
  sr : s'.txSr = s.txSr
  n : s'.n = s.n
  snap : s'.leds.map Led.snap = s.leds.map Led.snap

/-- The snapshot as bytes reads the snapshot of each LED alone (R74). -/
theorem snapByte_eq_map (s : State) (j : Nat) :
    s.snapByte j = (s.leds.map Led.snap)[j / 3]?.map (·.get (Fin.ofNat 3 (j % 3))) := by
  have hled : s.led (1 + j / 3) = s.leds[j / 3]? := by
    rw [Nat.add_comm]
    rfl
  rw [State.snapByte, hled, List.getElem?_map]
  cases s.leds[j / 3]? <;> rfl

/-- A pulse writes the transmitter registers and the strip output alone. -/
theorem eq_withTx_of_pulseStep {s t : State} (h : pulseStep s = .next t) : t = s.withTx t := by
  rcases pulseStep_eq_next h with ⟨-, rfl⟩ | ⟨-, -, v, -, rfl⟩ | ⟨-, -, rfl⟩ <;> rfl

/-- States the transmitter cannot tell apart put out the same and keep the same registers. -/
theorem pulseStep_congr {s s' t : State} (hsame : SameToTx s s') (h : pulseStep s = .next t) :
    ∃ out, t.stripOut = s.stripOut ++ out ∧
      pulseStep s' = .next { s'.withTx t with stripOut := s'.stripOut ++ out } := by
  obtain ⟨hbusy, hpos, hbits, hsr, hn, hsnap⟩ := hsame
  have hshift (pos : BitVec 10) (bits : BitVec 4) (sr : BitVec 8) :
      s'.shiftOut pos bits sr =
        { s'.withTx (s.shiftOut pos bits sr) with stripOut := s'.stripOut ++ [symbolOf sr.msb] } := by
    rw [State.shiftOut, hn]
    rfl
  rcases pulseStep_eq_next h with ⟨hidle, rfl⟩ | ⟨hb, hz, v, hv, rfl⟩ | ⟨hb, hz, rfl⟩
  · refine ⟨[], (List.append_nil _).symm, ?_⟩
    rw [pulseStep_of_idle (hbusy.trans hidle), List.append_nil, State.withTx, ← hbusy, ← hpos, ← hbits, ← hsr]
  · refine ⟨[symbolOf v.msb], rfl, ?_⟩
    have hbyte : s'.snapByte s'.txPos.toNat = some v := by
      rw [hpos, snapByte_eq_map, hsnap, ← snapByte_eq_map, hv]
    rw [← hshift, ← hpos]
    exact pulseStep_of_refill (hbusy.trans hb) (hbits.trans hz) hbyte
  · refine ⟨[symbolOf s.txSr.msb], rfl, ?_⟩
    rw [← hshift, ← hpos, ← hbits, ← hsr]
    exact pulseStep_of_bits_left (hbusy.trans hb) (by rwa [hbits])

/-! ### A byte does not see the transmitter (R130, R264) -/

theorem readBuf_withTx (s r : State) (i : Nat) : (s.withTx r).readBuf i = s.readBuf i := rfl

theorem readRange_withTx (s r : State) (i k : Nat) : (s.withTx r).readRange i k = s.readRange i k := by
  induction k generalizing i with
  | zero => rfl
  | succ k ih =>
    simp only [State.readRange, readBuf_withTx, ih]

theorem readablePrefix_withTx (s r : State) (i k : Nat) :
    (s.withTx r).readablePrefix i k = s.readablePrefix i k := by
  induction k generalizing i with
  | zero => rfl
  | succ k ih =>
    simp only [State.readablePrefix, readBuf_withTx, ih]

theorem messageChars_withTx (s r : State) : (s.withTx r).messageChars = s.messageChars := by
  have hlen : (s.withTx r).len = s.len := rfl
  have hcfg : (s.withTx r).cfg = s.cfg := rfl
  simp only [State.messageChars, readBuf_withTx, hlen, hcfg, readRange_withTx]

theorem emit_withTx (s r : State) (out : List Byte) : (s.withTx r).emit out = (s.emit out).withTx r := rfl

theorem bufAppend_withTx (s r : State) (v : Byte) (term : Bool) :
    (s.withTx r).bufAppend v term = (s.bufAppend v term).withTx r := by
  rw [State.bufAppend, State.bufAppend, apply_ite (State.withTx · r)]
  rfl

theorem feedNibble_withTx (s r : State) (n : BitVec 4) : (s.withTx r).feedNibble n = (s.feedNibble n).withTx r := by
  rw [State.feedNibble, State.feedNibble, bufAppend_withTx, apply_ite (State.withTx · r)]
  rfl

theorem dispatch_withTx {s t : State} (r : State) (h : dispatch s = .next t) :
    dispatch (s.withTx r) = .next (t.withTx r) := by
  obtain ⟨i, hi, ht, hrow⟩ := dispatch_eq_next h
  have hselects : cmdRow (s.withTx r).cfg.z9Match (s.withTx r).commandText = some i := by
    rw [State.commandText, readablePrefix_withTx]
    exact hi
  rw [dispatch, hselects]
  rcases hrow with rfl | rfl | rfl | rfl <;> cases ht <;> rfl

/-- The interpreter's run on the strip alone, put back into the state (R185). -/
theorem runInterpreter_withTx {s t : State} (r : State) (h : runInterpreter s = .next t) :
    runInterpreter (s.withTx r) = .next (t.withTx r) := by
  obtain ⟨chars, u, hchars, hu, hframe, rfl⟩ := runInterpreter_eq_next h
  have hrun : runStrip chars ((s.withTx r).setIdx 1) = .next (u.withTx r) := by
    have hput : (s.withTx r).withStrip u = u.withTx r := by
      rw [hframe.same]
      rfl
    rw [← hput]
    exact runStrip_withStrip (s.withTx r) hu
  rw [runInterpreter, messageChars_withTx, hchars]
  change andThen (runStrip chars ((s.withTx r).setIdx 1)) _ = _
  rw [hrun]
  rfl

/-- A byte row does the same whatever the transmitter holds. -/
theorem runByteRow_withTx {i : Instr} {s t : State} (r : State) (h : runByteRow i s = .next t) :
    runByteRow i (s.withTx r) = .next (t.withTx r) := by
  cases i with
  | idleEsc | idleCr | idleOther | acrEsc | acrCr | acrOther | wlfEsc | wlfCr | wlfLf | wlfOther | expaEsc | expaCr
  | expaA | expaOther | exptEsc | exptCr | exptT | exptOther | ccEsc | cmEsc =>
    cases h
    rfl
  | ccOther b =>
    cases h
    change execCcOther b (s.withTx r) = _
    rw [execCcOther, bufAppend_withTx]
    rfl
  | ccCr => exact dispatch_withTx r h
  | cmCr =>
    obtain rfl := Host.Outcome.next.inj ((execCmCr_eq s).symm.trans h)
    change execCmCr (s.withTx r) = _
    rw [execCmCr_eq, emit_withTx, feedNibble_withTx]
    rfl
  | cmOther b =>
    obtain rfl := Host.Outcome.next.inj ((execCmOther_eq b s).symm.trans h)
    change execCmOther b (s.withTx r) = _
    rw [execCmOther_eq, feedNibble_withTx]
    rfl
  | cmSub =>
    obtain ⟨u, hu, ht⟩ := andThen_eq_next.mp h
    obtain rfl := Host.Outcome.next.inj ht
    exact andThen_eq_next.mpr ⟨_, runInterpreter_withTx r hu, rfl⟩
  | _ => cases h

/-! ### The order of a pulse and a main-line step (R264, R285) -/

/-- A byte leaves what the transmitter sees as it was. -/
theorem ByteFrame.sameToTx {s t : State} (h : ByteFrame s t) : SameToTx s t where
  busy := h.txBusy
  pos := h.txPos
  bits := h.txBits
  sr := h.txSr
  n := congrArg Config.n h.cfg
  snap := h.leds.snap

theorem tickLeds_sameToTx (s : State) : SameToTx s s.tickLeds := ⟨rfl, rfl, rfl, rfl, rfl, tickLeds_snap s⟩

/-- After a main-line step that the transmitter does not see, a pulse does what it would have done before it. -/
theorem pulseStep_of_sameToTx {s s1 t1 : State} (hsame : SameToTx s t1) (hout : t1.stripOut = s.stripOut)
    (h : pulseStep s = .next s1) : pulseStep t1 = .next (t1.withTx s1) := by
  obtain ⟨out, hs1, ht1⟩ := pulseStep_congr hsame h
  rw [ht1, hout, ← hs1]
  rfl

theorem execTimerTick_of_busy {s : State} (hbusy : s.txBusy = true) : execTimerTick s = .next s.tickLeds := by
  have htrigger : s.trigger = s := by simpa [hbusy] using trigger_cases s
  rw [execTimerTick, htrigger]

/-! ### The statements -/

/-- Settles O32: a pulse with no frame in progress (R261). -/
theorem idleSclkDoesNothing : Obligations.IdleSclkDoesNothing := fun _ hidle => pulseStep_of_idle hidle

/-- Settles O33: a pulse with bits left and a pulse after a refill, each said on numbers. -/
theorem busySclkEmitsOneSymbol : Obligations.BusySclkEmitsOneSymbol := by
  constructor
  · intro s hbusy hbits
    rw [← symbolOf_msb, ← shiftLeft_one_eq_ofNat, ← frameOver_sub_one]
    exact pulseStep_of_bits_left hbusy hbits
  · intro s l v hbusy hbits hled hv
    subst hv
    rw [← symbolOf_msb, ← shiftLeft_one_eq_ofNat]
    change pulseStep s = .next ((s.emitSymbol _).setTx s.txBusy (s.txPos + 1) 7 _)
    rw [pulseStep_of_refill hbusy hbits (snapByte_of_led hled), shiftOut_refilled, hbusy]

/-- Settles O51: the frame of a pulse, and the pulse in a state the transmitter cannot tell apart. -/
theorem sclkSeesOnlyTheSnapshot : Obligations.SclkSeesOnlyTheSnapshot := by
  intro s s' t hbusy hpos hbits hsr hn hsnap h
  obtain ⟨out, hout, h'⟩ := pulseStep_congr ⟨hbusy, hpos, hbits, hsr, hn, hsnap⟩ h
  exact ⟨eq_withTx_of_pulseStep h, _, out, h', hout, rfl, rfl, rfl, rfl, rfl⟩

/-- Settles O52: the byte and the tick run the same on the registers the pulse leaves, and the pulse on what they
leave; in both orders the end is the main-line step's state with the pulse's registers and output. -/
theorem sclkCommutesWithTheMainLine : Obligations.SclkCommutesWithTheMainLine := by
  constructor
  · intro s b s1 t1 hsclk hbyte
    have hframe : ByteFrame s t1 := runByteRow_frame hbyte
    refine ⟨t1.withTx s1, ?_, pulseStep_of_sameToTx hframe.sameToTx hframe.stripOut hsclk⟩
    rw [eq_withTx_of_pulseStep hsclk]
    exact runByteRow_withTx s1 hbyte
  · intro s s1 t1 hbusy hsclk hbusy1 htick
    obtain rfl := Host.Outcome.next.inj ((execTimerTick_of_busy hbusy).symm.trans htick)
    refine ⟨s.tickLeds.withTx s1, ?_, pulseStep_of_sameToTx (tickLeds_sameToTx s) rfl hsclk⟩
    refine (execTimerTick_of_busy hbusy1).trans ?_
    rw [eq_withTx_of_pulseStep hsclk]
    rfl

end Sys2Proof.Machine
end

section
/-! PROOF. What the environment presents (60_exceptions.md): the order in which the events of one instant are
taken (R283), and that no event taken from a state that meets the invariants stops the machine (R275). -/
namespace Sys2Proof.Machine

/-! ### The event taken from the instant at the head (R283) -/

/-- An instant goes back to the head exactly when it still presents a tick or a byte. -/
theorem requeue_eq_ite (i : Instant) (rest : List Instant) :
    requeue i rest = if i.tick = true ∨ i.byteIn ≠ none then i :: rest else rest := by
  simp only [requeue, Bool.or_eq_true, Option.isSome_iff_ne_none]

section
variable {s : State} {i : Instant} {rest : List Instant}

theorem takeEvent_of_reset (hs : s.inputs = i :: rest) (hreset : i.reset = true) :
    takeEvent s = (some .reset, s.setInputs rest s.choice) := by
  simp only [takeEvent, hs, if_pos hreset]

theorem takeEvent_of_sclk (hs : s.inputs = i :: rest) (hreset : i.reset = false) (hsclk : i.sclk = true) :
    takeEvent s = (some .sclk, s.setInputs (requeue { i with sclk := false } rest) s.choice) := by
  simp only [takeEvent, hs, hreset, Bool.false_eq_true, if_false, if_pos hsclk]

theorem takeEvent_of_tick (hs : s.inputs = i :: rest) (hreset : i.reset = false) (hsclk : i.sclk = false)
    (htick : i.tick = true) (hbyte : i.byteIn = none) :
    takeEvent s = (some .timerTick, s.setInputs rest s.choice) := by
  simp only [takeEvent, hs, hreset, hsclk, htick, hbyte, Bool.false_eq_true, if_false]

theorem takeEvent_of_byteIn {b : Byte} (hs : s.inputs = i :: rest) (hreset : i.reset = false)
    (hsclk : i.sclk = false) (htick : i.tick = false) (hbyte : i.byteIn = some b) :
    takeEvent s = (some (.byteIn b), s.setInputs rest s.choice) := by
  simp only [takeEvent, hs, hreset, hsclk, htick, hbyte, Bool.false_eq_true, if_false]

/-- A tick and a byte of one instant: the free value of the tie says which goes first (log entry 3). -/
theorem takeEvent_of_tie {b : Byte} (hs : s.inputs = i :: rest) (hreset : i.reset = false)
    (hsclk : i.sclk = false) (htick : i.tick = true) (hbyte : i.byteIn = some b) :
    takeEvent s =
      if Config.tickFirst s.choice then
        (some .timerTick, s.setInputs ({ i with tick := false } :: rest) (s.choice + 1))
      else (some (.byteIn b), s.setInputs ({ i with byteIn := none } :: rest) (s.choice + 1)) := by
  simp only [takeEvent, hs, hreset, hsclk, htick, hbyte, Bool.false_eq_true, if_false]

end

/-! ### Every event completes (R275) -/

/-- No pulse reads past the snapshot where the strip's invariants hold: a refill is due only inside the frame
(R255, invariant 5 of R39). -/
theorem pulseStep_completes {s : State} (h : s.StripInv) : ∃ t, pulseStep s = .next t := by
  by_cases hbusy : s.txBusy = true
  · by_cases hbits : s.txBits = 0
    · obtain ⟨-, -, -, hlt⟩ := h.frame hbusy
      have hinside : s.txPos.toNat < 3 * s.n := by
        rw [hbits] at hlt
        change 8 * s.txPos.toNat < 24 * s.n + 0 at hlt
        omega
      obtain ⟨v, hv⟩ := snapByte_inside h.ledCount hinside
      exact ⟨_, pulseStep_of_refill hbusy hbits hv⟩
    · exact ⟨_, pulseStep_of_bits_left hbusy hbits⟩
  · exact ⟨_, pulseStep_of_idle (Bool.not_eq_true _ ▸ hbusy)⟩

/-- Of the four events only a byte and a pulse can fault, and neither does where the invariants hold. -/
theorem exec_event_completes {s : State} (h : s.Inv) (e : Event) : ∃ t, exec e.instr s = .next t := by
  cases e with
  | reset => exact ⟨_, rfl⟩
  | byteIn b => exact execByteIn_completes h b
  | timerTick => exact ⟨_, rfl⟩
  | sclk => exact pulseStep_completes (inv_iff.mp h).2

/-! ### The statements -/

/-- Settles O46: taking the event keeps the invariants, and from there every event completes. -/
theorem stepNeverStops : Obligations.StepNeverStops := by
  intro s h
  have htaken := takeEvent_inv h
  rcases heq : takeEvent s with ⟨_ | e, t⟩
  · exact ⟨t, step_of_takeEvent_none heq⟩
  · rw [heq] at htaken
    rw [step_of_takeEvent_some heq]
    exact exec_event_completes htaken e

/-- Settles O39: a clause for each kind of instant; a tie is either value of the free choice. -/
theorem eventsOfOneInstant : Obligations.EventsOfOneInstant := by
  intro s i rest hs
  refine ⟨takeEvent_of_reset hs, fun hreset hsclk => ?_, takeEvent_of_tick hs, fun b => takeEvent_of_byteIn hs,
    fun b hreset hsclk htick hbyte => ?_⟩
  · rw [takeEvent_of_sclk hs hreset hsclk, requeue_eq_ite]
    rfl
  · rw [takeEvent_of_tie hs hreset hsclk htick hbyte]
    split
    · exact .inl rfl
    · exact .inr rfl

end Sys2Proof.Machine
end
